-- ==== Sys2Proof/Word.lean ====
section
/-! DEFINITION. The two word types of the block (spec 00_scope.md section 5: `u8`, `u16`). -/

namespace Sys2Proof

/-- `u8`: an unsigned 8-bit word. -/
abbrev U8 := BitVec 8

/-- `u16`: an unsigned 16-bit word. -/
abbrev U16 := BitVec 16

end Sys2Proof
end

