-- ==== Sys2Proof/Config.lean ====
section
/-! DEFINITION. The implementation parameters of the block (00_scope.md section 4, R3) and the free values
that stand for the OPEN ones in the state after reset. -/

namespace Sys2Proof

/-- `ABS_BANK_CROSS` (20_memory.md R35): where the second byte of a 16-bit data access at offset 0xFFFF lies. -/
inductive AbsBankCross
  | wrapInBank
  | carryIntoNextBank
deriving DecidableEq, Repr, Inhabited

/-- The parameters a model of the block takes as arguments (00_scope.md R3) and that stay fixed for its life
(40_dispatch.md R72). `A_RESET` is an argument of the reset entry point and `MEM_INIT` is the memory of the state. -/
structure Params where
  /-- `ABS_BANK_CROSS`, OPEN (92_eei_decisions.md D4). -/
  absBankCross : AbsBankCross
  /-- `LDA_ABS_OPCODE`, OPEN: the opcode byte bound to "LDA abs", if any (30_encoding.md R55). -/
  ldaAbsOpcode : Option U8
deriving DecidableEq, Repr

/-- The bank-crossing rule of the machine that `State.reset` describes: a free value, nothing constrains it
(DESIGN CHOICE, safe: log 4). -/
opaque Config.absBankCross : AbsBankCross

/-- The draw `A_RESET` of the reset that `State.reset` describes: a free value, nothing constrains it
(10_state.md R25; DESIGN CHOICE, safe: log 2). -/
opaque Config.aReset : U16

/-- The parameters of the machine that `State.reset` describes: the bank-crossing rule free, "LDA abs" unbound,
which is the default the spec gives (30_encoding.md R55; DESIGN CHOICE, unsafe for claims about reset only: log 5). -/
def Config.params : Params :=
  { absBankCross := Config.absBankCross, ldaAbsOpcode := none }

end Sys2Proof
end

