-- ==== Sys2Proof/Syntax.lean ====
section
/-! DEFINITION. Instructions as syntax: one constructor per row of spec/opcode_table.json. -/

namespace Sys2Proof

/-- The width tag of a step or an operand (10_state.md R17, R23: exactly two instantiations). -/
inductive Width
  | w8
  | w16
deriving DecidableEq, Repr

/-- A value tagged with its width: a `u8` at W8, a `u16` at W16 (40_dispatch.md R76). -/
inductive Sized
  | w8 (v : U8)
  | w16 (v : U16)
deriving DecidableEq, Repr

/-- The width a value is tagged with. -/
def Sized.width : Sized → Width
  | .w8 _ => .w8
  | .w16 _ => .w16

/-- The bound instructions (30_encoding.md R54, R55). -/
inductive Instr
  /-- SEI, format IMP. -/
  | sei
  /-- STZ abs, format ABS. -/
  | stzAbs (offset : U16)
  /-- LDA #imm, format IMM: the immediate has the width of the step that fetches it (R52, R53). -/
  | ldaImm (value : Sized)
  /-- LDA abs, format ABS, bound only when `LDA_ABS_OPCODE` is some opcode (R55). -/
  | ldaAbs (offset : U16)
deriving DecidableEq, Repr

end Sys2Proof
end

