-- ==== Sys2Proof/Machine/Layout.lean ====
section
/-! DEFINITION. Bytes, addresses and opcode bytes: byte order, the physical address, the fixed locations. -/

namespace Sys2Proof

/-- `hi ++ lo = (hi << 8) | lo` (00_scope.md section 5; little-endian order is 20_memory.md R37). -/
def word16 (hi lo : U8) : U16 := hi ++ lo

/-- `v[7:0]`. -/
def lowByte (v : U16) : U8 := v.extractLsb' 0 8

/-- `v[15:8]`. -/
def highByte (v : U16) : U8 := v.extractLsb' 8 8

/-- An address: a bank and an offset (20_memory.md R31). -/
structure Addr where
  bank   : U8
  offset : U16
deriving DecidableEq, Repr

/-- The 24-bit physical address `bank ++ offset` (20_memory.md R31), as the key of a memory cell. -/
def Addr.phys (a : Addr) : Nat := (a.bank ++ a.offset).toNat

/-- The number of byte locations of the address space, 2^24 (20_memory.md R31). -/
def addressSpace : Nat := 2 ^ 24

/-- `RESET_VECTOR` in bank 0x00 (20_memory.md R45). -/
def resetVector : Addr := ⟨0x00#8, 0xFFFC#16⟩

/-- The opcode byte of SEI (30_encoding.md R54). -/
def opcodeSei : U8 := 0x78#8

/-- The opcode byte of STZ abs (30_encoding.md R54). -/
def opcodeStzAbs : U8 := 0x9C#8

/-- The opcode byte of LDA #imm (30_encoding.md R54). -/
def opcodeLdaImm : U8 := 0xA9#8

end Sys2Proof
end

