-- ==== Sys2Proof/WellFormed.lean ====
section
/-! DEFINITION. Well-formed configurations and instructions. -/

namespace Sys2Proof

/-- A configuration is well formed unless it binds "LDA abs" to an opcode the map already binds
(30_encoding.md R55). -/
def Params.wf (p : Params) : Bool :=
  match p.ldaAbsOpcode with
  | none => true
  | some op => op != opcodeSei && op != opcodeStzAbs && op != opcodeLdaImm

/-- An instruction is well formed at a configuration and a width when the configuration is, a row of the opcode map
binds it (30_encoding.md R54, R55) and its immediate has the width of the step (R53). -/
def Instr.wellFormed (p : Params) (w : Width) (i : Instr) : Bool :=
  p.wf && match i with
    | .sei => true
    | .stzAbs _ => true
    | .ldaImm v => v.width == w
    | .ldaAbs _ => p.ldaAbsOpcode.isSome

end Sys2Proof
end

