-- ==== Sys2Proof/Decode.lean ====
section
/-! DEFINITION. The decoder, total on any bytes, and the encoder. -/

namespace Sys2Proof

/-- Why a byte stream is not an instruction (30_encoding.md R56: the only reason there is). -/
inductive DecodeError
  /-- The first byte is bound to no instruction. -/
  | unbound (opcode : U8)
deriving DecidableEq, Repr

/-- The instruction that a stream of bytes begins with, at a width (30_encoding.md R50 to R56): `stream k` is the
byte at offset PC + k. The opcode byte alone selects the instruction; the width only sets how many immediate bytes
there are. Operand bytes are assembled little-endian (R52). -/
def decode (p : Params) (w : Width) (stream : Nat → U8) : Except DecodeError Instr :=
  let op := stream 0
  let abs16 := word16 (stream 2) (stream 1)
  if op = opcodeSei then .ok .sei
  else if op = opcodeStzAbs then .ok (.stzAbs abs16)
  else if op = opcodeLdaImm then
    match w with
    | .w8 => .ok (.ldaImm (.w8 (stream 1)))
    | .w16 => .ok (.ldaImm (.w16 abs16))
  else if p.ldaAbsOpcode = some op then .ok (.ldaAbs abs16)
  else .error (.unbound op)

/-- How many bytes an instruction has, opcode included (30_encoding.md R51, R53). -/
def Instr.length : Instr → Nat
  | .sei => 1
  | .stzAbs _ => 3
  | .ldaImm (.w8 _) => 2
  | .ldaImm (.w16 _) => 3
  | .ldaAbs _ => 3

/-- The bytes of an instruction, opcode first (30_encoding.md R51, R52, R54, R55); none for "LDA abs" where the
configuration binds no opcode to it. -/
def encode (p : Params) : Instr → Option (List U8)
  | .sei => some [opcodeSei]
  | .stzAbs off => some [opcodeStzAbs, lowByte off, highByte off]
  | .ldaImm (.w8 v) => some [opcodeLdaImm, v]
  | .ldaImm (.w16 v) => some [opcodeLdaImm, lowByte v, highByte v]
  | .ldaAbs off => p.ldaAbsOpcode.map fun op => [op, lowByte off, highByte off]

/-- Byte `k` of an instruction word numbered as spec/opcode_table.json numbers bits, the bits from `nbits` up being 0:
the first byte is bits 7 to 0, the second bits 15 to 8. -/
def tableByte (nbits w k : Nat) : U8 :=
  BitVec.ofNat 8 (w % 2 ^ nbits / 2 ^ (8 * k))

/-- What the decoder reads from a table word, at the configuration and the width of the state after reset:
"LDA abs" unbound, P.W = 0 (log 13). -/
def decodeTableWord (nbits w : Nat) : Option Instr :=
  match decode Config.params .w8 (tableByte nbits w) with
  | .ok i => some i
  | .error _ => none

end Sys2Proof
end

