-- ==== Sys2Proof/Machine/Memory.lean ====
section
/-! DEFINITION. The reference collaborator's RAM as plain data (20_memory.md R40): a list of cells in one canonical
form. -/

namespace Sys2Proof.Machine

/-- RAM contents: the cells whose byte differs from `unlistedByte`, by rising physical address. -/
abbrev Memory := List Host.Cell

/-- What an address with no cell reads as. Every `MEM_INIT` has a list of its own, so this fixes only the contents of
the memory that lists nothing (DESIGN CHOICE, unsafe for claims about reset: log 1). -/
def unlistedByte : U8 := 0x00#8

/-- The byte at a physical address: the last one written there, else what the initial memory holds (R40). -/
def Memory.read : Memory → Nat → U8
  | [], _ => unlistedByte
  | (k, v) :: rest, a => if k = a then v else Memory.read rest a

/-- Put a cell in front of a memory whose addresses are all higher, unless it says what an unlisted address says. -/
def Memory.cons (a : Nat) (v : U8) (rest : Memory) : Memory :=
  if v = unlistedByte then rest else (a, v) :: rest

/-- Store a byte at a physical address, keeping the canonical form. -/
def Memory.write : Memory → Nat → U8 → Memory
  | [], a, v => Memory.cons a v []
  | (k, x) :: rest, a, v =>
    if a < k then Memory.cons a v ((k, x) :: rest)
    else if a = k then Memory.cons a v rest
    else (k, x) :: Memory.write rest a v

/-- The canonical form: addresses strictly rising and inside the address space, no cell that says what an unlisted
address says. -/
def Memory.wf (m : Memory) : Bool :=
  decide (m.Pairwise fun c d => c.1 < d.1) &&
    m.all fun c => decide (c.1 < addressSpace) && decide (c.2 ≠ unlistedByte)

end Sys2Proof.Machine
end

