-- ==== Sys2Proof/Machine/Block.lean ====
section
/-! DEFINITION. The block and its collaborator: the register file, the bus interface, the bus trace. -/

namespace Sys2Proof.Machine

/-- The register file (10_state.md R10). -/
structure RegFile where
  /-- PB, program bank. -/
  pb : U8
  /-- PC, program counter. -/
  pc : U16
  /-- DB, data bank. -/
  db : U8
  /-- A, accumulator, all 16 bits always stored (R15). -/
  a : U16
  /-- P, flags: I at bit 2, W at bit 5, the other bits stored and preserved (R16). -/
  p : U8
deriving DecidableEq, Repr

/-- One bus call, an entry of the bus trace (20_memory.md R41). -/
inductive BusCall
  | read (addr : Addr) (value : U8)
  | write (addr : Addr) (value : U8)
deriving DecidableEq, Repr

/-- The memory collaborator `BUS` (20_memory.md R30; 00_scope.md R3): total byte reads and writes, with a state of its
own that a read may change too. -/
structure Bus (μ : Type) where
  read  : μ → Addr → U8 × μ
  write : μ → Addr → U8 → μ

/-- The block joined to a collaborator whose state is a `μ` (10_state.md R11), with the trace of the bus calls of the
step or reset under way (20_memory.md R41). -/
structure Block (μ : Type) where
  regs  : RegFile
  mem   : μ
  /-- The bus calls made, first call first. -/
  trace : List BusCall
deriving DecidableEq, Repr

/-- The reference collaborator (20_memory.md R40): a RAM whose reads change nothing. -/
def ramBus : Bus Memory where
  read m a := (m.read a.phys, m)
  write m a v := m.write a.phys v

/-- What a decode failure records (60_exceptions.md R130). -/
structure DecodeFailureInfo where
  opcode : U8
  pb     : U8
  pc     : U16
deriving DecidableEq, Repr

end Sys2Proof.Machine
end

