-- ==== Sys2Proof/Machine/Flags.lean ====
section
/-! DEFINITION. The flags in P (10_state.md R16) and the mode-dispatch gate, the one reader of W. No instruction of the
block computes a flag from a result (42_execute.md R119). -/

namespace Sys2Proof.Machine

/-- P.I, bit 2 (10_state.md R16, R19). -/
def flagI (p : U8) : Bool := p.getLsbD 2

/-- P.W, bit 5 (10_state.md R16, R17). -/
def flagW (p : U8) : Bool := p.getLsbD 5

/-- `P.I <- 1`: `P <- P | 0x04` (42_execute.md R114). -/
def setFlagI (p : U8) : U8 := p ||| 0x04#8

/-- `width(P)`: W = 1 selects 16 bits (10_state.md R17). -/
def widthOf (p : U8) : Width := if flagW p then .w16 else .w8

/-- The mode-dispatch gate: read the width once and run the resolver with it and the two continuations
(40_dispatch.md R73, R74). -/
def gate {α β ρ : Type} (p : U8) (resolver : Width → α → β → ρ) (k8 : α) (k16 : β) : ρ :=
  resolver (widthOf p) k8 k16

end Sys2Proof.Machine
end

