-- ==== Sys2Proof/Machine/Ops.lean ====
section
/-! DEFINITION. The named operations of the block over registers and memory, for any collaborator. -/

namespace Sys2Proof.Machine

variable {μ : Type}

/-! ### The width abstraction (10_state.md R20 to R22) -/

/-- `get_W8(A)`. -/
def get8 (a : U16) : U8 := lowByte a

/-- `get_W16(A)`. -/
def get16 (a : U16) : U16 := a

/-- `set_W8(A, v)`: bits 15:8 stay. -/
def set8 (a : U16) (v : U8) : U16 := word16 (highByte a) v

/-- `set_W16(A, v)`. -/
def set16 (_a v : U16) : U16 := v

/-- `default_W8`. -/
def default8 : U8 := 0x00#8

/-- `default_W16`. -/
def default16 : U16 := 0x0000#16

/-! ### Register updates -/

/-- The block with another register file. -/
def Block.setRegs (b : Block μ) (r : RegFile) : Block μ := { b with regs := r }

/-- `A <- v`. -/
def RegFile.setA (r : RegFile) (v : U16) : RegFile := { r with a := v }

/-- `P <- v`. -/
def RegFile.setP (r : RegFile) (v : U8) : RegFile := { r with p := v }

/-- `PC <- v`. -/
def RegFile.setPc (r : RegFile) (v : U16) : RegFile := { r with pc := v }

/-! ### Bus calls (20_memory.md R30, R41) -/

/-- Begin the bus trace of a step or reset. -/
def Block.beginTrace (b : Block μ) : Block μ := { b with trace := [] }

/-- `BusRead`: one call, one entry of the trace. -/
def busRead (bus : Bus μ) (a : Addr) (b : Block μ) : U8 × Block μ :=
  let r := bus.read b.mem a
  (r.1, { b with mem := r.2, trace := b.trace ++ [.read a r.1] })

/-- `BusWrite`: one call, one entry of the trace. -/
def busWrite (bus : Bus μ) (a : Addr) (v : U8) (b : Block μ) : Block μ :=
  { b with mem := bus.write b.mem a v, trace := b.trace ++ [.write a v] }

/-! ### Instruction-stream fetch (20_memory.md R33) -/

/-- The address of the next instruction-stream byte, (PB, PC). -/
def RegFile.fetchAddr (r : RegFile) : Addr := ⟨r.pb, r.pc⟩

/-- `Fetch()`: PC wraps inside bank PB. -/
def fetch (bus : Bus μ) (b : Block μ) : U8 × Block μ :=
  let r := busRead bus b.regs.fetchAddr b
  (r.1, r.2.setRegs (r.2.regs.setPc (r.2.regs.pc + 1#16)))

/-- Two fetches, low byte first (41_addressing.md R93 to R95). -/
def fetch16 (bus : Bus μ) (b : Block μ) : U16 × Block μ :=
  let lo := fetch bus b
  let hi := fetch bus lo.2
  (word16 hi.1 lo.1, hi.2)

/-- The fetches of an instruction of `n` bytes. -/
def fetchBytes (bus : Bus μ) : Nat → Block μ → Block μ
  | 0, b => b
  | n + 1, b => fetchBytes bus n (fetch bus b).2

/-! ### Data access (20_memory.md R34 to R36) -/

/-- `NextAddr`: the address of the second byte of a 16-bit data access (R35). -/
def nextAddr (cross : AbsBankCross) (a : Addr) : Addr :=
  if a.offset ≠ 0xFFFF#16 then ⟨a.bank, a.offset + 1#16⟩
  else
    match cross with
    | .wrapInBank => ⟨a.bank, 0x0000#16⟩
    | .carryIntoNextBank => ⟨a.bank + 1#8, 0x0000#16⟩

/-- `MemRead(addr, 1)`. -/
def memRead8 (bus : Bus μ) (a : Addr) (b : Block μ) : U8 × Block μ := busRead bus a b

/-- `MemRead(addr, 2)`: the low byte first. -/
def memRead16 (bus : Bus μ) (cross : AbsBankCross) (a : Addr) (b : Block μ) : U16 × Block μ :=
  let lo := busRead bus a b
  let hi := busRead bus (nextAddr cross a) lo.2
  (word16 hi.1 lo.1, hi.2)

/-- `MemWrite(addr, 1, v)`. -/
def memWrite8 (bus : Bus μ) (a : Addr) (v : U8) (b : Block μ) : Block μ := busWrite bus a v b

/-- `MemWrite(addr, 2, v)`: the low byte first. -/
def memWrite16 (bus : Bus μ) (cross : AbsBankCross) (a : Addr) (v : U16) (b : Block μ) : Block μ :=
  busWrite bus (nextAddr cross a) (highByte v) (busWrite bus a (lowByte v) b)

/-! ### The exception (60_exceptions.md R130, R132; 40_dispatch.md R79) -/

/-- What a decode failure reports of a register file and the opcode fetched at (PB, PC). -/
def RegFile.decodeFailure (r : RegFile) (opcode : U8) : DecodeFailureInfo :=
  { opcode := opcode, pb := r.pb, pc := r.pc }

/-- Report a decode failure after the opcode fetch: PC goes back to the opcode, so no register mutation survives; the
opcode read stays in the trace. There is no return from it (R136). -/
def Block.reportDecodeFailure (b : Block μ) (pc0 : U16) (opcode : U8) : DecodeFailureInfo × Block μ :=
  let r := b.regs.setPc pc0
  (r.decodeFailure opcode, b.setRegs r)

/-! ### Reset (70_reset_and_hazards.md R150) -/

/-- The reset entry point: read the vector, low byte first, and overwrite every register; `aReset` is the draw
`A_RESET`. -/
def Block.reset (bus : Bus μ) (aReset : U16) (b : Block μ) : Block μ :=
  let lo := busRead bus resetVector b.beginTrace
  let hi := busRead bus ⟨resetVector.bank, resetVector.offset + 1#16⟩ lo.2
  hi.2.setRegs { pb := 0x00#8, pc := word16 hi.1 lo.1, db := 0x00#8, a := aReset, p := 0x04#8 }

end Sys2Proof.Machine
end

