-- ==== Sys2Proof/Machine/State.lean ====
section
/-! DEFINITION. The machine's state, its reasons to stop, and the state after reset. -/

namespace Sys2Proof.Machine

/-- The dispatcher's phase (10_state.md R26), with a value for the time before the first reset (R27). -/
inductive Phase
  /-- No reset has happened: the registers do not exist yet, and the register fields of the state mean nothing. -/
  | beforeReset
  /-- Between steps. -/
  | ready
  /-- Inside a step, from the opcode fetch to the handler's return. -/
  | executing
deriving DecidableEq, Repr

/-- The machine: the block joined to the reference RAM (registers, memory, bus trace), the dispatcher's phase and the
implementation parameters. Plain data. -/
structure State extends Block Memory where
  /-- The dispatcher's phase (10_state.md R26, R27). -/
  phase : Phase
  /-- The implementation parameters, which nothing changes (00_scope.md R3). -/
  params : Params
deriving DecidableEq, Repr

/-- Why the machine stops with a fault. -/
inductive Fault
  /-- The opcode fetched at (PB, PC) is unbound (60_exceptions.md R130). Raised by `step`. The spec has the step report
  it and leave the registers unchanged; the model ends the run (R133), which is safe: what the driving loop does next is
  outside the block. -/
  | decodeFailure (info : DecodeFailureInfo)
deriving DecidableEq, Repr

/-- Why the model gives a move no meaning. -/
inductive Refusal
  /-- An instruction with no meaning yet: no instruction of this model. Safe. -/
  | notModelled (mnemonic : String)
  /-- A step or a host access before the first reset (10_state.md R27). Raised by `step`, `hostRead`, `hostWrite`. Safe. -/
  | beforeReset
  /-- A step, a reset or a host access while a step executes (10_state.md R24; 40_dispatch.md R77). Raised by `step`,
  `resetEntry`, `hostRead`, `hostWrite`; no run reaches it. Safe. -/
  | duringStep
  /-- "LDA abs" bound to an opcode that is already bound (30_encoding.md R55). Raised by `step` and `resetEntry`. Safe. -/
  | illFormedConfiguration
deriving DecidableEq, Repr

/-- The bus trace of a step that ends in a fault: the one opcode read (40_dispatch.md R79). -/
def Fault.busTrace : Fault → List BusCall
  | .decodeFailure info => [.read ⟨info.pb, info.pc⟩ info.opcode]

/-- The machine before its first reset, with given parameters and initial memory contents `MEM_INIT`
(70_reset_and_hazards.md R152). -/
def State.powerOn (params : Params) (memInit : Memory) : State :=
  { regs := { pb := 0#8, pc := 0#16, db := 0#8, a := 0#16, p := 0#8 }, mem := memInit, trace := []
    phase := .beforeReset, params := params }

/-- The state a reset leaves: every register overwritten, the phase Ready (70_reset_and_hazards.md R150, R151). -/
def State.afterReset (aReset : U16) (s : State) : State :=
  { toBlock := s.toBlock.reset ramBus aReset, phase := .ready, params := s.params }

/-- The machine right after its first reset, for every value of the parameters a model takes as arguments
(00_scope.md R3). -/
def State.boot (params : Params) (aReset : U16) (memInit : Memory) : State :=
  (State.powerOn params memInit).afterReset aReset

/-- The machine right after reset: the registers as 10_state.md R25 gives them, memory with nothing listed, the OPEN
parameters free (logs 1, 2, 4, 5, 14). -/
def State.reset : State := State.boot Config.params Config.aReset []

end Sys2Proof.Machine
end

