-- ==== Sys2Proof/Machine/Control.lean ====
section
/-! DEFINITION. What surrounds an instruction's own effect: when a move is allowed, the instruction stream at (PB, PC),
the fetches and the phase. -/

namespace Sys2Proof.Machine

/-- The outcome type of the machine's moves. -/
abbrev Result := Host.Outcome State Fault Refusal

/-- Apply an operation of the block to the machine and go on. -/
def State.onBlock (f : Block Memory → Block Memory) (s : State) : Result :=
  .next { s with toBlock := f s.toBlock }

/-- The reason a step or a host access is refused, if there is one: they need a machine that was reset and is between
steps (10_state.md R24, R27; 40_dispatch.md R77). -/
def Phase.refusal : Phase → Option Refusal
  | .beforeReset => some .beforeReset
  | .ready => none
  | .executing => some .duringStep

/-- The reason a step is refused, if there is one: the phase, or an ill-formed configuration (30_encoding.md R55). -/
def State.stepRefusal (s : State) : Option Refusal :=
  match s.phase.refusal with
  | some r => some r
  | none => if s.params.wf then none else some .illFormedConfiguration

/-- The address of byte `k` of the instruction stream: offset PC + k mod 2^16 in bank PB (20_memory.md R33). -/
def RegFile.streamAddr (r : RegFile) (k : Nat) : Addr := ⟨r.pb, r.pc + BitVec.ofNat 16 k⟩

/-- The instruction stream at (PB, PC) (20_memory.md R32, R33). Looking at it is no bus call: the fetches of a step are
`State.fetched`'s, and the reference RAM's reads change nothing (R40; log 15). -/
def State.stream (s : State) (k : Nat) : U8 := s.mem.read (s.regs.streamAddr k).phys

/-- What the machine decodes at (PB, PC), at the width P.W selects (30_encoding.md R53; 40_dispatch.md R76). -/
def State.decoded (s : State) : Except DecodeError Instr :=
  decode s.params (widthOf s.regs.p) s.stream

/-- The state in which an instruction's own effect starts: its bytes fetched one by one, PC past them, the phase
Executing (40_dispatch.md R71; 10_state.md R13, R26). -/
def State.fetched (i : Instr) (s : State) : State :=
  { toBlock := fetchBytes ramBus i.length s.toBlock.beginTrace, phase := .executing, params := s.params }

/-- The end of a step: the dispatcher is Ready again (40_dispatch.md R78). -/
def finishStep : Result → Result
  | .next s => .next { s with phase := .ready }
  | .fault f => .fault f
  | .refused r => .refused r

/-- The fault of a step whose opcode is unbound (60_exceptions.md R130). -/
def State.decodeFault (s : State) (opcode : U8) : Fault :=
  .decodeFailure (s.regs.decodeFailure opcode)

end Sys2Proof.Machine
end

