-- ==== Sys2Proof/Machine/Operands.lean ====
section
/-! DEFINITION. The addressing-mode resolvers (41_addressing.md), for any collaborator. A resolver fetches its operand
bytes and hands the result to exactly one of two continuations, chosen by the width (R90). The part after the fetches is
a definition of its own, which the meaning of a decoded instruction starts from. -/

namespace Sys2Proof.Machine

variable {μ ρ : Type}

/-! ### Handing a result over (R90, R91) -/

/-- Hand over the same operand at both widths: `Unit` (R92) or an address (R94). -/
def deliver {α : Type} (x : α) (w : Width) (k8 k16 : α → ρ) : ρ :=
  match w with
  | .w8 => k8 x
  | .w16 => k16 x

/-- Read the value at an address at the width and hand it over (R95). -/
def deliverMemory (bus : Bus μ) (cross : AbsBankCross) (a : Addr) (w : Width) (k8 : U8 → Block μ → ρ)
    (k16 : U16 → Block μ → ρ) (b : Block μ) : ρ :=
  match w with
  | .w8 => let v := memRead8 bus a b; k8 v.1 v.2
  | .w16 => let v := memRead16 bus cross a b; k16 v.1 v.2

/-- The effective address of format ABS: the bank comes from DB (20_memory.md R32; 30_encoding.md R52). -/
def RegFile.dataAddr (r : RegFile) (offset : U16) : Addr := ⟨r.db, offset⟩

/-! ### The resolvers -/

/-- Implied (R92): no operand, no bus call. -/
def implied (w : Width) (k8 k16 : Unit → Block μ → ρ) (b : Block μ) : ρ :=
  deliver () w k8 k16 b

/-- Immediate (R93): one byte at W8, two at W16. -/
def immediate (bus : Bus μ) (w : Width) (k8 : U8 → Block μ → ρ) (k16 : U16 → Block μ → ρ) (b : Block μ) : ρ :=
  match w with
  | .w8 => let v := fetch bus b; k8 v.1 v.2
  | .w16 => let v := fetch16 bus b; k16 v.1 v.2

/-- Absolute-address (R94): two bytes at either width, yielding the address itself. -/
def absoluteAddress (bus : Bus μ) (w : Width) (k8 k16 : Addr → Block μ → ρ) (b : Block μ) : ρ :=
  let off := fetch16 bus b
  deliver (off.2.regs.dataAddr off.1) w k8 k16 off.2

/-- Absolute (R95): two bytes at either width, yielding the value in memory. -/
def absolute (bus : Bus μ) (cross : AbsBankCross) (w : Width) (k8 : U8 → Block μ → ρ) (k16 : U16 → Block μ → ρ)
    (b : Block μ) : ρ :=
  let off := fetch16 bus b
  deliverMemory bus cross (off.2.regs.dataAddr off.1) w k8 k16 off.2

end Sys2Proof.Machine
end

