-- ==== Sys2Proof/Machine/Interrupt.lean ====
section
/-! DEFINITION. Set-interrupt-disable: the handler and the instruction. -/

namespace Sys2Proof.Machine

variable {μ : Type}

/-- SEI_h (42_execute.md R114), the same at both widths. -/
def seiHandler (_ : Unit) (b : Block μ) : Block μ := b.setRegs (b.regs.setP (setFlagI b.regs.p))

/-- SEI (42_execute.md R115): through the gate and the Implied resolver like every bound opcode (40_dispatch.md R73). -/
def execSei (s : State) : Result :=
  s.onBlock fun b => gate b.regs.p implied seiHandler seiHandler b

end Sys2Proof.Machine
end

