-- ==== Sys2Proof/Machine/Load.lean ====
section
/-! DEFINITION. Load-accumulator: the handlers and the two instructions. No flag is written (42_execute.md R119). -/

namespace Sys2Proof.Machine

variable {μ : Type}

/-- LDA8 (42_execute.md R110): A[15:8] stays. -/
def lda8 (v : U8) (b : Block μ) : Block μ := b.setRegs (b.regs.setA (set8 b.regs.a v))

/-- LDA16 (42_execute.md R111). -/
def lda16 (v : U16) (b : Block μ) : Block μ := b.setRegs (b.regs.setA (set16 b.regs.a v))

/-- LDA #imm (42_execute.md R112). The immediate's width is the width the gate read when the step fetched it, so the
handler of that width runs and P.W is not read again (40_dispatch.md R75; log 12). -/
def execLdaImm (value : Sized) (s : State) : Result :=
  match value with
  | .w8 v => s.onBlock (lda8 v)
  | .w16 v => s.onBlock (lda16 v)

/-- LDA abs (42_execute.md R113). -/
def execLdaAbs (offset : U16) (s : State) : Result :=
  s.onBlock fun b =>
    gate b.regs.p (deliverMemory ramBus s.params.absBankCross (b.regs.dataAddr offset)) lda8 lda16 b

end Sys2Proof.Machine
end

