-- ==== Sys2Proof/Machine/Store.lean ====
section
/-! DEFINITION. Store-zero: the handlers and the instruction. -/

namespace Sys2Proof.Machine

variable {μ : Type}

/-- STZ8 (42_execute.md R116): exactly one bus write. -/
def stz8 (bus : Bus μ) (a : Addr) (b : Block μ) : Block μ := memWrite8 bus a default8 b

/-- STZ16 (42_execute.md R117): exactly two bus writes, low address first. -/
def stz16 (bus : Bus μ) (cross : AbsBankCross) (a : Addr) (b : Block μ) : Block μ :=
  memWrite16 bus cross a default16 b

/-- STZ abs (42_execute.md R118). -/
def execStzAbs (offset : U16) (s : State) : Result :=
  s.onBlock fun b =>
    gate b.regs.p (deliver (b.regs.dataAddr offset)) (stz8 ramBus) (stz16 ramBus s.params.absBankCross) b

end Sys2Proof.Machine
end

