-- ==== Sys2Proof/Machine/Dispatch.lean ====
section
/-! DEFINITION. One arm per instruction. -/

namespace Sys2Proof.Machine

def exec (i : Instr) (s : State) : Host.Outcome State Fault Refusal :=
  match i with
  | .sei => Sys2Proof.Machine.execSei s
  | .stzAbs offset => Sys2Proof.Machine.execStzAbs offset s
  | .ldaImm value => Sys2Proof.Machine.execLdaImm value s
  | .ldaAbs offset => Sys2Proof.Machine.execLdaAbs offset s

end Sys2Proof.Machine
end

