-- ==== Sys2Proof/Machine/Step.lean ====
section
/-! DEFINITION. One step of the machine, and the placing of an instruction where the step fetches it. -/

namespace Sys2Proof.Machine

/-- One step (40_dispatch.md R71): decode the instruction at (PB, PC) at the width of the pre-step state, fetch its bytes,
run its effect and be Ready again; an unbound opcode is reported and changes nothing (R79). `dispatcherStep` in
Machine/Dispatcher.lean is the same step in the spec's own words. -/
def step (s : State) : Host.Outcome State Fault Refusal :=
  match s.stepRefusal with
  | some r => .refused r
  | none =>
    match s.decoded with
    | .ok i => finishStep (exec i (s.fetched i))
    | .error (.unbound op) => .fault (s.decodeFault op)

/-- Byte `k` of a table word stored at byte `k` of the instruction stream. -/
def State.withStreamByte (nbits w k : Nat) (s : State) : State :=
  { s with mem := s.mem.write (s.regs.streamAddr k).phys (tableByte nbits w k) }

/-- The instruction of a table word stored at (PB, PC), three bytes, the longest instruction (30_encoding.md R51). -/
def State.withFetchWord (s : State) (nbits w : Nat) : State :=
  ((s.withStreamByte nbits w 0).withStreamByte nbits w 1).withStreamByte nbits w 2

end Sys2Proof.Machine
end

