-- ==== Sys2Proof/Machine/Dispatcher.lean ====
section
/-! DEFINITION. The step in the spec's own words (40_dispatch.md R71 to R73), for any collaborator: fetch the opcode, look
up the triple bound to it, run the gate. `Machine.step` decodes first; that the two agree on the reference RAM is a
statement for the provers. -/

namespace Sys2Proof.Machine

variable {μ : Type}

/-- A bound entry of the dispatch table: a resolver, the 8-bit handler and the 16-bit handler (40_dispatch.md R72). -/
structure DispatchEntry (μ : Type) where
  /-- What the resolver yields at W8. -/
  Operand8 : Type
  /-- What the resolver yields at W16. -/
  Operand16 : Type
  resolver : Width → (Operand8 → Block μ → Block μ) → (Operand16 → Block μ → Block μ) → Block μ → Block μ
  handler8 : Operand8 → Block μ → Block μ
  handler16 : Operand16 → Block μ → Block μ

/-- SEI's triple (30_encoding.md R54). -/
def entrySei : DispatchEntry μ := ⟨Unit, Unit, implied, seiHandler, seiHandler⟩

/-- STZ abs's triple (30_encoding.md R54). -/
def entryStzAbs (bus : Bus μ) (cross : AbsBankCross) : DispatchEntry μ :=
  ⟨Addr, Addr, absoluteAddress bus, stz8 bus, stz16 bus cross⟩

/-- LDA #imm's triple (30_encoding.md R54). -/
def entryLdaImm (bus : Bus μ) : DispatchEntry μ := ⟨U8, U16, immediate bus, lda8, lda16⟩

/-- LDA abs's triple (30_encoding.md R55). -/
def entryLdaAbs (bus : Bus μ) (cross : AbsBankCross) : DispatchEntry μ :=
  ⟨U8, U16, absolute bus cross, lda8, lda16⟩

/-- The dispatch table (40_dispatch.md R72): total on the 256 opcodes, `none` is `Unbound`. -/
def dispatchTable (bus : Bus μ) (p : Params) (op : U8) : Option (DispatchEntry μ) :=
  if op = opcodeSei then some entrySei
  else if op = opcodeStzAbs then some (entryStzAbs bus p.absBankCross)
  else if op = opcodeLdaImm then some (entryLdaImm bus)
  else if p.ldaAbsOpcode = some op then some (entryLdaAbs bus p.absBankCross)
  else none

/-- The outcome of a step of the block (40_dispatch.md R70). -/
inductive StepOutcome
  | ok
  | decodeFailure (info : DecodeFailureInfo)
deriving DecidableEq, Repr

/-- The step of the block with any collaborator (40_dispatch.md R71): its outcome, with the registers, the
collaborator's state and the bus trace it leaves. -/
def dispatcherStep (bus : Bus μ) (p : Params) (b : Block μ) : StepOutcome × Block μ :=
  let pc0 := b.regs.pc
  let op := fetch bus b.beginTrace
  match dispatchTable bus p op.1 with
  | none =>
    let report := op.2.reportDecodeFailure pc0 op.1
    (.decodeFailure report.1, report.2)
  | some entry => (.ok, gate op.2.regs.p entry.resolver entry.handler8 entry.handler16 op.2)

end Sys2Proof.Machine
end

