-- ==== Sys2Proof/Machine/HostPort.lean ====
section
/-! DEFINITION. What the driving loop does between steps, apart from stepping: the register port and the reset entry
point. -/

namespace Sys2Proof.Machine

/-- The registers of the host port (10_state.md R24). -/
inductive Reg
  | pb
  | pc
  | db
  | a
  | p
deriving DecidableEq, Repr

/-- A register as the host port reads it: A all 16 bits, P all 8 (10_state.md R15, R24). -/
def RegFile.get (r : RegFile) : Reg → Sized
  | .pb => .w8 r.pb
  | .pc => .w16 r.pc
  | .db => .w8 r.db
  | .a => .w16 r.a
  | .p => .w8 r.p

/-- A write of one register at the host port, at its full width (10_state.md R24). -/
inductive HostWrite
  | pb (v : U8)
  | pc (v : U16)
  | db (v : U8)
  | a (v : U16)
  | p (v : U8)
deriving DecidableEq, Repr

/-- The register file after a write at the host port. -/
def RegFile.hostSet (r : RegFile) : HostWrite → RegFile
  | .pb v => { r with pb := v }
  | .pc v => r.setPc v
  | .db v => { r with db := v }
  | .a v => r.setA v
  | .p v => r.setP v

/-- The host reads a register; only between steps, after a reset (10_state.md R24, R27). -/
def hostRead (reg : Reg) (s : State) : Except Refusal Sized :=
  match s.phase.refusal with
  | some r => .error r
  | none => .ok (s.regs.get reg)

/-- The host writes a register; only between steps, after a reset (10_state.md R24, R27). It makes no bus call, and the
trace stays that of the latest step or reset. -/
def hostWrite (w : HostWrite) (s : State) : Result :=
  match s.phase.refusal with
  | some r => .refused r
  | none => s.onBlock fun b => b.setRegs (b.regs.hostSet w)

/-- The reset entry point (70_reset_and_hazards.md R150, R151): the first reset or any later one, between steps; each call
has a draw `A_RESET` of its own (log 2). An ill-formed configuration is refused (30_encoding.md R55). -/
def resetEntry (aReset : U16) (s : State) : Result :=
  match s.phase with
  | .executing => .refused .duringStep
  | .beforeReset | .ready =>
    if s.params.wf then .next (s.afterReset aReset) else .refused .illFormedConfiguration

end Sys2Proof.Machine
end

