-- ==== Sys2Proof/Machine/Driver.lean ====
section
/-! DEFINITION. The driving loop's moves and the runs they make (40_dispatch.md R80; 00_scope.md R2). -/

namespace Sys2Proof.Machine

/-- What the driving loop may do to the machine. -/
inductive Move
  /-- Call `step` (40_dispatch.md R70). -/
  | step
  /-- Call `reset`, with its draw (70_reset_and_hazards.md R150). -/
  | reset (aReset : U16)
  /-- Write a register (10_state.md R24). -/
  | write (w : HostWrite)
deriving DecidableEq, Repr

/-- One move. -/
def move (m : Move) (s : State) : Result :=
  match m with
  | .step => step s
  | .reset aReset => resetEntry aReset s
  | .write w => hostWrite w s

/-- A run: the moves the driving loop chooses, ended by the first fault or refusal (40_dispatch.md R80;
60_exceptions.md R133). -/
def drive : List Move → State → Result
  | [], s => .next s
  | m :: ms, s =>
    match move m s with
    | .next t => drive ms t
    | .fault f => .fault f
    | .refused r => .refused r

end Sys2Proof.Machine
end

