-- ==== Sys2Proof/Safety.lean ====
section
/-! DEFINITION. What claims call a legal state and a safe run. -/

namespace Sys2Proof

/-- The machine is between steps, its configuration is well formed and its memory is in canonical form. -/
structure Machine.State.Inv (s : Machine.State) : Prop where
  ready  : s.phase = .ready
  params : s.params.wf = true
  mem    : s.mem.wf = true

/-- `n` steps from `s` all complete: no decode failure, no refusal (40_dispatch.md R80: a claim names its number of
steps). -/
def SafeRun (n : Nat) (s : Machine.State) : Prop :=
  ∃ t : Machine.State, Host.Core.run core n s = .next t

/-- The moves all complete. -/
def SafeDrive (ms : List Machine.Move) (s : Machine.State) : Prop :=
  ∃ t, Machine.drive ms s = .next t

end Sys2Proof
end

