-- ==== Sys2Proof/Certificates/Slice0/Obligations.lean ====
section
/-! DEFINITION. The statements for the provers. -/

namespace Sys2Proof

open Machine

/-- The opcode map binds this byte (30_encoding.md R54, R55). -/
def BoundOpcode (p : Params) (op : U8) : Prop :=
  op = 0x78#8 ∨ op = 0x9C#8 ∨ op = 0xA9#8 ∨ p.ldaAbsOpcode = some op

/-- A state in which `step` is not refused: Ready, with a well-formed configuration. -/
def Steppable (s : State) : Prop := s.phase = .ready ∧ s.params.wf = true

/-- The address of instruction-stream byte `k`: offset PC + k mod 2^16 in bank PB (20_memory.md R33). -/
def streamAt (r : RegFile) (k : U16) : Addr := ⟨r.pb, r.pc + k⟩

/-- The byte there in the reference RAM. -/
def streamByte (s : State) (k : U16) : U8 := s.mem.read (streamAt s.regs k).phys

/-- The trace entry of fetching that byte. -/
def fetchCall (s : State) (k : U16) : BusCall := .read (streamAt s.regs k) (streamByte s k)

/-- The address a format ABS instruction at (PB, PC) names: (DB, offset), the offset's low byte fetched first
(30_encoding.md R52). -/
def streamDataAddr (s : State) : Addr := ⟨s.regs.db, word16 (streamByte s 2#16) (streamByte s 1#16)⟩

/-- The machine with another bank-crossing rule. -/
def withCross (c : AbsBankCross) (s : State) : State := { s with params := { s.params with absBankCross := c } }

/-- A `k`-th fetch from any collaborator whose state is `m`, in a step that starts with registers `r`. -/
def anyFetch {μ : Type} (bus : Bus μ) (r : RegFile) (m : μ) (k : U16) : U8 × μ := bus.read m (streamAt r k)

end Sys2Proof

open Sys2Proof Sys2Proof.Machine

/-! ### Encoding -/

/-- For every well-formed instruction, with every operand at every value, a stream that begins with its encoding decodes to
it, and the encoding has the instruction's length (30_encoding.md R50 to R55). -/
def Obligations.DecodeOfEncodeIsTheInstruction : Prop :=
  ∀ (p : Params) (w : Width) (i : Instr), i.wellFormed p w = true →
    ∃ bytes, encode p i = some bytes ∧ bytes.length = i.length ∧
      ∀ stream : Nat → U8, (∀ (k : Nat) (h : k < bytes.length), stream k = bytes[k]) → decode p w stream = .ok i

/-- What the decoder accepts is well formed, and its encoding is the bytes it was read from: no encoding bit is ignored
(30_encoding.md R51, R52). -/
def Obligations.EncodeOfDecodeIsTheStream : Prop :=
  ∀ (p : Params) (w : Width) (stream : Nat → U8) (i : Instr), p.wf = true → decode p w stream = .ok i →
    i.wellFormed p w = true ∧ encode p i = some ((List.range i.length).map stream)

/-- The decoder rejects a stream exactly when its first byte is bound to nothing, and names that byte
(30_encoding.md R56). -/
def Obligations.DecodeRejectsExactlyUnboundOpcodes : Prop :=
  ∀ (p : Params) (w : Width) (stream : Nat → U8) (op : U8),
    decode p w stream = .error (.unbound op) ↔ op = stream 0 ∧ ¬ BoundOpcode p op

/-- 253 opcode bytes are unbound when LDA_ABS_OPCODE is none, 252 otherwise (30_encoding.md R56). -/
def Obligations.UnboundOpcodesNumber253Or252 : Prop :=
  ∀ (p : Params) (w : Width), p.wf = true →
    ((List.range 256).filter fun n =>
        decide (decode p w (fun _ => BitVec.ofNat 8 n) = .error (.unbound (BitVec.ofNat 8 n)))).length =
      if p.ldaAbsOpcode = none then 253 else 252

/-- The opcode and, for format IMM alone, P.W fix the length, and the width never selects the instruction (30_encoding.md
R53): 0xA9 is LDA #imm at both widths, with an immediate of that width, and every other bound opcode decodes the same at
both. -/
def Obligations.LengthIsFixedByOpcodeAndWidth : Prop :=
  ∀ (p : Params) (flags : U8) (stream : Nat → U8) (i : Instr), decode p (widthOf flags) stream = .ok i →
    (stream 0 = 0x78#8 → i.length = 1) ∧
    (stream 0 = 0x9C#8 → i.length = 3) ∧
    (stream 0 = 0xA9#8 → i.length = if flags.getLsbD 5 then 3 else 2) ∧
    (stream 0 ≠ 0x78#8 → stream 0 ≠ 0x9C#8 → stream 0 ≠ 0xA9#8 → i.length = 3) ∧
    (stream 0 = 0xA9#8 → ∀ w, ∃ v : Sized, v.width = w ∧ decode p w stream = .ok (.ldaImm v)) ∧
    (stream 0 ≠ 0xA9#8 → ∀ w, decode p w stream = .ok i)

/-- A few instruction words of the spec decode to what they stand for (30_encoding.md R57; 95_test_vectors.md S6 to S10). -/
def Obligations.ExampleWordsDecode : Prop :=
  decode ⟨.wrapInBank, none⟩ .w8 (fun k => ([0x78#8] : List U8).getD k 0#8) = .ok .sei ∧
  decode ⟨.wrapInBank, none⟩ .w8 (fun k => ([0x9C#8, 0x00#8, 0x20#8] : List U8).getD k 0#8) = .ok (.stzAbs 0x2000#16) ∧
  decode ⟨.wrapInBank, none⟩ .w8 (fun k => ([0xA9#8, 0x42#8] : List U8).getD k 0#8) = .ok (.ldaImm (.w8 0x42#8)) ∧
  decode ⟨.wrapInBank, none⟩ .w16 (fun k => ([0xA9#8, 0x34#8, 0x12#8] : List U8).getD k 0#8) = .ok (.ldaImm (.w16 0x1234#16)) ∧
  decode ⟨.wrapInBank, some 0xAD#8⟩ .w8 (fun k => ([0xAD#8, 0x00#8, 0x20#8] : List U8).getD k 0#8) = .ok (.ldaAbs 0x2000#16) ∧
  decode ⟨.wrapInBank, none⟩ .w8 (fun k => ([0xAD#8, 0x00#8, 0x20#8] : List U8).getD k 0#8) = .error (.unbound 0xAD#8) ∧
  decode ⟨.wrapInBank, none⟩ .w8 (fun k => ([0xFF#8] : List U8).getD k 0#8) = .error (.unbound 0xFF#8)

/-! ### Registers and flags -/

/-- The width abstraction (10_state.md R20, R22): what get reads, the defaults, and that a default set reads back. -/
def Obligations.WidthAbstractionReadsWhatWasSet : Prop :=
  (∀ a : U16, (get8 a).toNat = a.toNat % 256 ∧ get16 a = a) ∧ default8 = 0x00#8 ∧ default16 = 0x0000#16 ∧
  (∀ a : U16, get8 (set8 a default8) = default8 ∧ get16 (set16 a default16) = default16)

/-- An 8-bit write of the accumulator replaces bits 7:0 and keeps bits 15:8; a 16-bit write replaces all of it
(10_state.md R21). -/
def Obligations.EightBitWriteKeepsHighByte : Prop :=
  ∀ (a : U16) (v : U8) (u : U16),
    (set8 a v).toNat = a.toNat / 256 * 256 + v.toNat ∧ get8 (set8 a v) = v ∧ highByte (set8 a v) = highByte a ∧
    set16 a u = u

/-- W, bit 5 of P, selects the width: 0 is 8-bit, 1 is 16-bit (10_state.md R16, R17). -/
def Obligations.WidthFlagSelectsWidth : Prop :=
  ∀ p : U8, (p &&& 0x20#8 = 0#8 → widthOf p = .w8) ∧ (p &&& 0x20#8 ≠ 0#8 → widthOf p = .w16)

/-- Setting I sets bit 2 of P and no other bit (10_state.md R16; 42_execute.md R114). -/
def Obligations.SettingIChangesOnlyBitTwo : Prop :=
  ∀ (p : U8) (k : Nat), (setFlagI p).getLsbD k = (decide (k = 2) || p.getLsbD k)

/-- What each handler does to the block, with any collaborator (42_execute.md R110, R111, R114, R116, R117): the
accumulator, I, or the bus writes, and nothing else. -/
def Obligations.HandlersDoExactlyWhatTheirRulesList : Prop :=
  ∀ (μ : Type) (bus : Bus μ) (cross : AbsBankCross) (b : Block μ) (v : U8) (u : U16) (a : Addr),
    lda8 v b = { b with regs := { b.regs with a := word16 (highByte b.regs.a) v } } ∧
    lda16 u b = { b with regs := { b.regs with a := u } } ∧
    seiHandler () b = { b with regs := { b.regs with p := b.regs.p ||| 0x04#8 } } ∧
    stz8 bus a b = { b with mem := bus.write b.mem a 0x00#8, trace := b.trace ++ [.write a 0x00#8] } ∧
    stz16 bus cross a b =
      { b with
        mem := bus.write (bus.write b.mem a 0x00#8) (nextAddr cross a) 0x00#8
        trace := b.trace ++ [.write a 0x00#8, .write (nextAddr cross a) 0x00#8] }

/-! ### Memory -/

/-- Where the second byte of a 16-bit data access lies (20_memory.md R35). -/
def Obligations.NextAddressFollowsBankCrossRule : Prop :=
  ∀ (c : AbsBankCross) (a : Addr),
    (a.offset.toNat < 0xFFFF →
      (nextAddr c a).bank = a.bank ∧ (nextAddr c a).offset.toNat = a.offset.toNat + 1) ∧
    (a.offset.toNat = 0xFFFF → (nextAddr c a).offset = 0x0000#16) ∧
    (a.offset.toNat = 0xFFFF → c = .wrapInBank → (nextAddr c a).bank = a.bank) ∧
    (a.offset.toNat = 0xFFFF → c = .carryIntoNextBank →
      (nextAddr c a).bank.toNat = (a.bank.toNat + 1) % 256)

/-- A fetch makes one read, at (PB, PC), and moves PC on by one mod 2^16 with PB and everything else as before, for any
collaborator (20_memory.md R33). -/
def Obligations.FetchReadsAndAdvancesInsideTheBank : Prop :=
  ∀ (μ : Type) (bus : Bus μ) (b : Block μ),
    let r := bus.read b.mem ⟨b.regs.pb, b.regs.pc⟩
    (fetch bus b).1 = r.1 ∧ (fetch bus b).2.mem = r.2 ∧
    (fetch bus b).2.trace = b.trace ++ [.read ⟨b.regs.pb, b.regs.pc⟩ r.1] ∧
    (fetch bus b).2.regs = { b.regs with pc := (fetch bus b).2.regs.pc } ∧
    (fetch bus b).2.regs.pc.toNat = (b.regs.pc.toNat + 1) % 65536

/-- The calls of the data access primitives, for any collaborator: one byte call at 8 bits, two at 16 bits, low address
first, the bytes little-endian (20_memory.md R34, R36). -/
def Obligations.DataAccessCallsLowAddressFirst : Prop :=
  ∀ (μ : Type) (bus : Bus μ) (c : AbsBankCross) (a : Addr) (b : Block μ) (v : U8) (u : U16),
    (let lo := bus.read b.mem a
     let hi := bus.read lo.2 (nextAddr c a)
     memRead8 bus a b = (lo.1, { b with mem := lo.2, trace := b.trace ++ [.read a lo.1] }) ∧
     memRead16 bus c a b =
       (word16 hi.1 lo.1, { b with mem := hi.2, trace := b.trace ++ [.read a lo.1, .read (nextAddr c a) hi.1] })) ∧
    memWrite8 bus a v b = { b with mem := bus.write b.mem a v, trace := b.trace ++ [.write a v] } ∧
    memWrite16 bus c a u b =
      { b with
        mem := bus.write (bus.write b.mem a (lowByte u)) (nextAddr c a) (highByte u)
        trace := b.trace ++ [.write a (lowByte u), .write (nextAddr c a) (highByte u)] }

/-- On the reference RAM what was written is read back at the same width, also across the bank's end, and a 16-bit value
lies as its low byte at the address and its high byte at the next (20_memory.md R34, R36, R37). -/
def Obligations.MemoryReadsBackWhatWasWritten : Prop :=
  ∀ (c : AbsBankCross) (a : Addr) (b : Block Memory) (v : U8) (u : U16), b.mem.wf = true →
    (memRead8 ramBus a (memWrite8 ramBus a v b)).1 = v ∧
    (memRead16 ramBus c a (memWrite16 ramBus c a u b)).1 = u ∧
    (memRead8 ramBus a (memWrite16 ramBus c a u b)).1 = lowByte u ∧
    (memRead8 ramBus (nextAddr c a) (memWrite16 ramBus c a u b)).1 = highByte u

/-- After any sequence of writes a read of the reference RAM returns the value of the latest one to its address, or the
initial contents if there is none; and the contents stay in canonical form (20_memory.md R40, R42). -/
def Obligations.EveryReadReturnsTheLatestWrite : Prop :=
  ∀ (m : Memory) (writes : List (Addr × U8)) (a : Addr), m.wf = true →
    let m' := writes.foldl (fun n x => ramBus.write n x.1 x.2) m
    m'.wf = true ∧
    (ramBus.read m' a).1 = ((writes.reverse.find? fun x => decide (x.1 = a)).map (·.2)).getD (ramBus.read m a).1 ∧
    (ramBus.read m' a).2 = m'

/-- Every initial contents MEM_INIT is the contents of exactly one memory in canonical form, so that nothing said of all
memories leaves one out (20_memory.md R40; the form of memory is the model's, log 1). -/
def Obligations.EveryInitialContentsHasOneMemory : Prop :=
  ∀ memInit : Addr → U8, ∃ m : Memory, (m.wf = true ∧ ∀ a, m.read a.phys = memInit a) ∧
    ∀ m' : Memory, m'.wf = true → (∀ a, m'.read a.phys = memInit a) → m' = m

/-! ### The step -/

/-- When the bytes at (PB, PC) decode to an instruction, a step is exec of it after the fetches of its bytes, and the phase
is Ready again after it. -/
def Obligations.StepRunsTheDecodedInstruction : Prop :=
  ∀ (s : State) (i : Instr), Steppable s → decode s.params (widthOf s.regs.p) s.stream = .ok i →
    step s = finishStep (exec i (s.fetched i)) ∧
    (s.fetched i).regs = { s.regs with pc := s.regs.pc + BitVec.ofNat 16 i.length } ∧
    (s.fetched i).mem = s.mem ∧
    (s.fetched i).trace =
      (List.range i.length).map (fun k => fetchCall s (BitVec.ofNat 16 k)) ∧
    (s.fetched i).phase = .executing ∧ (s.fetched i).params = s.params ∧
    (∀ t, finishStep (.next t) = .next { t with phase := .ready })

/-- A step of the machine is the spec's own step on the reference RAM: fetch the opcode, look up its triple, run the gate;
the same registers, memory, bus trace and outcome (40_dispatch.md R71 to R73; 41_addressing.md R92 to R95). -/
def Obligations.StepAgreesWithTheDispatcher : Prop :=
  ∀ s : State, Steppable s →
    step s =
      match dispatcherStep ramBus s.params s.toBlock with
      | (.ok, b) => .next { s with toBlock := b }
      | (.decodeFailure info, _) => .fault (.decodeFailure info)

/-- A step whose opcode is unbound is a decode failure that carries the opcode, PB and PC; its trace is the one opcode
read (60_exceptions.md R130; 40_dispatch.md R79). -/
def Obligations.UnboundOpcodeIsADecodeFailure : Prop :=
  ∀ s : State, Steppable s → ¬ BoundOpcode s.params (streamByte s 0#16) →
    step s = .fault (.decodeFailure ⟨streamByte s 0#16, s.regs.pb, s.regs.pc⟩) ∧
    (Fault.decodeFailure ⟨streamByte s 0#16, s.regs.pb, s.regs.pc⟩).busTrace = [fetchCall s 0#16]

/-- A decode failure leaves every register as it was, PC at the opcode, and makes the one opcode read and no other bus
call, for any collaborator (40_dispatch.md R79). -/
def Obligations.DecodeFailureLeavesRegistersUnchanged : Prop :=
  ∀ (μ : Type) (bus : Bus μ) (p : Params) (b : Block μ),
    let opcode := anyFetch bus b.regs b.mem 0#16
    ¬ BoundOpcode p opcode.1 →
      dispatcherStep bus p b =
        (.decodeFailure ⟨opcode.1, b.regs.pb, b.regs.pc⟩,
          { regs := b.regs, mem := opcode.2, trace := [.read (streamAt b.regs 0#16) opcode.1] })

/-- There is no fault latch: stepped again with nothing changed, and a collaborator that reads the same byte, a failed step
fails identically (60_exceptions.md R133). -/
def Obligations.DecodeFailureRepeats : Prop :=
  ∀ (μ : Type) (bus : Bus μ) (p : Params) (b b' : Block μ) (info : DecodeFailureInfo),
    dispatcherStep bus p b = (.decodeFailure info, b') →
    (anyFetch bus b'.regs b'.mem 0#16).1 = info.opcode →
    (dispatcherStep bus p b').1 = .decodeFailure info ∧ (dispatcherStep bus p b').2.regs = b.regs

/-- The decode failure is the only fault, raised exactly on an unbound opcode (60_exceptions.md R130, R131). -/
def Obligations.StepFaultsExactlyOnUnboundOpcodes : Prop :=
  ∀ (s : State) (f : Fault),
    step s = .fault f ↔
      Steppable s ∧ ¬ BoundOpcode s.params (streamByte s 0#16) ∧
        f = .decodeFailure ⟨streamByte s 0#16, s.regs.pb, s.regs.pc⟩

/-- A step is refused exactly before the first reset (10_state.md R27), during a step and in an ill-formed configuration.
The last two are the model's choice: the spec has no host move during a step (R24), which the model's phase makes a refusal
(log 9), and it says of an ill-formed configuration only that it is refused, which the model does at each step (log 5). -/
def Obligations.StepIsRefusedExactlyInTheseStates : Prop :=
  ∀ (s : State) (r : Refusal),
    step s = .refused r ↔
      (s.phase = .beforeReset ∧ r = .beforeReset) ∨ (s.phase = .executing ∧ r = .duringStep) ∨
      (s.phase = .ready ∧ r = .illFormedConfiguration ∧
        ∃ op, s.params.ldaAbsOpcode = some op ∧ (op = 0x78#8 ∨ op = 0x9C#8 ∨ op = 0xA9#8))

/-- A step on a bound opcode completes (40_dispatch.md R77, R78; 60_exceptions.md R131). -/
def Obligations.StepCompletesOnBoundOpcodes : Prop :=
  ∀ s : State, Steppable s → BoundOpcode s.params (streamByte s 0#16) → ∃ t, step s = .next t ∧ t.phase = .ready

/-! ### What each instruction does -/

/-- SEI completes in every state: I is set, nothing else changes (42_execute.md R114). -/
def Obligations.SeiSetsInterruptDisable : Prop :=
  ∀ s : State, exec .sei s = .next { s with regs := { s.regs with p := s.regs.p ||| 0x04#8 } }

/-- LDA #imm completes in every state: the accumulator at the immediate's width, nothing else. Where P.W selects the
immediate's width this is 42_execute.md R110 to R112; in the other states, which no step brings to exec, that the handler of
the immediate's width runs is the model's choice (DEDUCED, log 12). -/
def Obligations.LdaImmediateLoadsTheAccumulator : Prop :=
  ∀ (s : State) (v : U8) (u : U16),
    exec (.ldaImm (.w8 v)) s = .next { s with regs := { s.regs with a := word16 (highByte s.regs.a) v } } ∧
    exec (.ldaImm (.w16 u)) s = .next { s with regs := { s.regs with a := u } }

/-- LDA abs completes in every state: the byte or the word at (DB, offset) into the accumulator, the data reads on the
trace, nothing else (42_execute.md R113; 20_memory.md R34). -/
def Obligations.LdaAbsoluteLoadsFromTheDataBank : Prop :=
  ∀ (s : State) (offset : U16),
    let lo : Addr := ⟨s.regs.db, offset⟩
    let hi := nextAddr s.params.absBankCross lo
    let lv := s.mem.read lo.phys
    let hv := s.mem.read hi.phys
    (s.regs.p.getLsbD 5 = false →
      exec (.ldaAbs offset) s =
        .next { s with
                regs := { s.regs with a := word16 (highByte s.regs.a) lv }
                trace := s.trace ++ [.read lo lv] }) ∧
    (s.regs.p.getLsbD 5 = true →
      exec (.ldaAbs offset) s =
        .next { s with
                regs := { s.regs with a := word16 hv lv }
                trace := s.trace ++ [.read lo lv, .read hi hv] })

/-- STZ abs completes in every state: one zero byte at (DB, offset) at 8 bits, a second one at the next address at 16 bits,
the writes on the trace, nothing else (42_execute.md R116, R117, R118). -/
def Obligations.StzAbsoluteStoresZero : Prop :=
  ∀ (s : State) (offset : U16),
    let lo : Addr := ⟨s.regs.db, offset⟩
    let hi := nextAddr s.params.absBankCross lo
    (s.regs.p.getLsbD 5 = false →
      exec (.stzAbs offset) s =
        .next { s with mem := s.mem.write lo.phys 0x00#8, trace := s.trace ++ [.write lo 0x00#8] }) ∧
    (s.regs.p.getLsbD 5 = true →
      exec (.stzAbs offset) s =
        .next { s with
                mem := (s.mem.write lo.phys 0x00#8).write hi.phys 0x00#8
                trace := s.trace ++ [.write lo 0x00#8, .write hi 0x00#8] })

/-- The whole step of SEI (42_execute.md R115). -/
def Obligations.SeiStepAdvancesByOne : Prop :=
  ∀ s : State, Steppable s → streamByte s 0#16 = 0x78#8 →
    step s =
      .next { s with
              regs := { s.regs with pc := s.regs.pc + 1#16, p := s.regs.p ||| 0x04#8 }
              trace := [fetchCall s 0#16] }

/-- The whole step of LDA #imm at each width (42_execute.md R112). -/
def Obligations.LdaImmediateStepTakesOneOrTwoBytes : Prop :=
  ∀ s : State, Steppable s → streamByte s 0#16 = 0xA9#8 →
    (s.regs.p.getLsbD 5 = false →
      step s =
        .next { s with
                regs := { s.regs with
                          pc := s.regs.pc + 2#16
                          a := word16 (highByte s.regs.a) (streamByte s 1#16) }
                trace := [fetchCall s 0#16, fetchCall s 1#16] }) ∧
    (s.regs.p.getLsbD 5 = true →
      step s =
        .next { s with
                regs := { s.regs with
                          pc := s.regs.pc + 3#16
                          a := word16 (streamByte s 2#16) (streamByte s 1#16) }
                trace := [fetchCall s 0#16, fetchCall s 1#16, fetchCall s 2#16] })

/-- The whole step of LDA abs at each width, where LDA_ABS_OPCODE binds an opcode to it (42_execute.md R113). -/
def Obligations.LdaAbsoluteStepReadsAfterFetching : Prop :=
  ∀ s : State, Steppable s → s.params.ldaAbsOpcode = some (streamByte s 0#16) →
    let lo := streamDataAddr s
    let hi := nextAddr s.params.absBankCross lo
    let lv := s.mem.read lo.phys
    let hv := s.mem.read hi.phys
    (s.regs.p.getLsbD 5 = false →
      step s =
        .next { s with
                regs := { s.regs with pc := s.regs.pc + 3#16, a := word16 (highByte s.regs.a) lv }
                trace := [fetchCall s 0#16, fetchCall s 1#16, fetchCall s 2#16, .read lo lv] }) ∧
    (s.regs.p.getLsbD 5 = true →
      step s =
        .next { s with
                regs := { s.regs with pc := s.regs.pc + 3#16, a := word16 hv lv }
                trace := [fetchCall s 0#16, fetchCall s 1#16, fetchCall s 2#16, .read lo lv, .read hi hv] })

/-- The whole step of STZ abs at each width: the target is not read, and is written after the instruction was fetched
(42_execute.md R118). -/
def Obligations.StzAbsoluteStepWritesAfterFetching : Prop :=
  ∀ s : State, Steppable s → streamByte s 0#16 = 0x9C#8 →
    let lo := streamDataAddr s
    let hi := nextAddr s.params.absBankCross lo
    (s.regs.p.getLsbD 5 = false →
      step s =
        .next { s with
                regs := { s.regs with pc := s.regs.pc + 3#16 }
                mem := s.mem.write lo.phys 0x00#8
                trace := [fetchCall s 0#16, fetchCall s 1#16, fetchCall s 2#16, .write lo 0x00#8] }) ∧
    (s.regs.p.getLsbD 5 = true →
      step s =
        .next { s with
                regs := { s.regs with pc := s.regs.pc + 3#16 }
                mem := (s.mem.write lo.phys 0x00#8).write hi.phys 0x00#8
                trace := [fetchCall s 0#16, fetchCall s 1#16, fetchCall s 2#16, .write lo 0x00#8, .write hi 0x00#8] })

/-! ### Any collaborator -/

/-- SEI and LDA #imm with any collaborator: only instruction-stream reads, in order (42_execute.md R112, R115;
41_addressing.md R92, R93). -/
def Obligations.SeiAndLdaImmediateOnAnyBus : Prop :=
  ∀ (μ : Type) (bus : Bus μ) (p : Params) (b : Block μ),
    let f0 := anyFetch bus b.regs b.mem 0#16
    let f1 := anyFetch bus b.regs f0.2 1#16
    let f2 := anyFetch bus b.regs f1.2 2#16
    (f0.1 = 0x78#8 →
      dispatcherStep bus p b =
        (.ok, { regs := { b.regs with pc := b.regs.pc + 1#16, p := b.regs.p ||| 0x04#8 }
                mem := f0.2, trace := [.read (streamAt b.regs 0#16) f0.1] })) ∧
    (f0.1 = 0xA9#8 → b.regs.p.getLsbD 5 = false →
      dispatcherStep bus p b =
        (.ok, { regs := { b.regs with pc := b.regs.pc + 2#16, a := word16 (highByte b.regs.a) f1.1 }
                mem := f1.2, trace := [.read (streamAt b.regs 0#16) f0.1, .read (streamAt b.regs 1#16) f1.1] })) ∧
    (f0.1 = 0xA9#8 → b.regs.p.getLsbD 5 = true →
      dispatcherStep bus p b =
        (.ok, { regs := { b.regs with pc := b.regs.pc + 3#16, a := word16 f2.1 f1.1 }
                mem := f2.2
                trace := [.read (streamAt b.regs 0#16) f0.1, .read (streamAt b.regs 1#16) f1.1,
                  .read (streamAt b.regs 2#16) f2.1] }))

/-- STZ abs with any collaborator: three instruction-stream reads, then one or two writes of zero, low address first, and no
read of the target (42_execute.md R118; 41_addressing.md R94; 20_memory.md R40). -/
def Obligations.StzAbsoluteOnAnyBus : Prop :=
  ∀ (μ : Type) (bus : Bus μ) (p : Params) (b : Block μ),
    let f0 := anyFetch bus b.regs b.mem 0#16
    let f1 := anyFetch bus b.regs f0.2 1#16
    let f2 := anyFetch bus b.regs f1.2 2#16
    let lo : Addr := ⟨b.regs.db, word16 f2.1 f1.1⟩
    let hi := nextAddr p.absBankCross lo
    let fetches : List BusCall :=
      [.read (streamAt b.regs 0#16) f0.1, .read (streamAt b.regs 1#16) f1.1, .read (streamAt b.regs 2#16) f2.1]
    f0.1 = 0x9C#8 →
    (b.regs.p.getLsbD 5 = false →
      dispatcherStep bus p b =
        (.ok, { regs := { b.regs with pc := b.regs.pc + 3#16 }, mem := bus.write f2.2 lo 0x00#8
                trace := fetches ++ [.write lo 0x00#8] })) ∧
    (b.regs.p.getLsbD 5 = true →
      dispatcherStep bus p b =
        (.ok, { regs := { b.regs with pc := b.regs.pc + 3#16 }
                mem := bus.write (bus.write f2.2 lo 0x00#8) hi 0x00#8
                trace := fetches ++ [.write lo 0x00#8, .write hi 0x00#8] }))

/-- LDA abs with any collaborator: three instruction-stream reads, then one or two data reads, low address first
(42_execute.md R113; 41_addressing.md R95). -/
def Obligations.LdaAbsoluteOnAnyBus : Prop :=
  ∀ (μ : Type) (bus : Bus μ) (p : Params) (b : Block μ),
    let f0 := anyFetch bus b.regs b.mem 0#16
    let f1 := anyFetch bus b.regs f0.2 1#16
    let f2 := anyFetch bus b.regs f1.2 2#16
    let lo : Addr := ⟨b.regs.db, word16 f2.1 f1.1⟩
    let hi := nextAddr p.absBankCross lo
    let d0 := bus.read f2.2 lo
    let d1 := bus.read d0.2 hi
    let fetches : List BusCall :=
      [.read (streamAt b.regs 0#16) f0.1, .read (streamAt b.regs 1#16) f1.1, .read (streamAt b.regs 2#16) f2.1]
    p.wf = true → p.ldaAbsOpcode = some f0.1 →
    (b.regs.p.getLsbD 5 = false →
      dispatcherStep bus p b =
        (.ok, { regs := { b.regs with pc := b.regs.pc + 3#16, a := word16 (highByte b.regs.a) d0.1 }, mem := d0.2
                trace := fetches ++ [.read lo d0.1] })) ∧
    (b.regs.p.getLsbD 5 = true →
      dispatcherStep bus p b =
        (.ok, { regs := { b.regs with pc := b.regs.pc + 3#16, a := word16 d1.1 d0.1 }, mem := d1.2
                trace := fetches ++ [.read lo d0.1, .read hi d1.1] }))

/-- The gate runs exactly one continuation of every resolver, the 8-bit one when W is 0 and the 16-bit one when W is 1: the
result is that continuation's, applied once, to an operand and a block that depend on neither continuation
(40_dispatch.md R75; 41_addressing.md R90). -/
def Obligations.GateRunsExactlyOneContinuation : Prop :=
  ∀ (μ : Type) (bus : Bus μ) (c : AbsBankCross) (p : U8) (b : Block μ),
    (p.getLsbD 5 = false →
      (∃ x b', ∀ (ρ : Type) (k8 k16 : Unit → Block μ → ρ), gate p implied k8 k16 b = k8 x b') ∧
      (∃ x b', ∀ (ρ : Type) (k8 : U8 → Block μ → ρ) (k16 : U16 → Block μ → ρ),
        gate p (immediate bus) k8 k16 b = k8 x b') ∧
      (∃ x b', ∀ (ρ : Type) (k8 k16 : Addr → Block μ → ρ), gate p (absoluteAddress bus) k8 k16 b = k8 x b') ∧
      (∃ x b', ∀ (ρ : Type) (k8 : U8 → Block μ → ρ) (k16 : U16 → Block μ → ρ),
        gate p (absolute bus c) k8 k16 b = k8 x b')) ∧
    (p.getLsbD 5 = true →
      (∃ x b', ∀ (ρ : Type) (k8 k16 : Unit → Block μ → ρ), gate p implied k8 k16 b = k16 x b') ∧
      (∃ x b', ∀ (ρ : Type) (k8 : U8 → Block μ → ρ) (k16 : U16 → Block μ → ρ),
        gate p (immediate bus) k8 k16 b = k16 x b') ∧
      (∃ x b', ∀ (ρ : Type) (k8 k16 : Addr → Block μ → ρ), gate p (absoluteAddress bus) k8 k16 b = k16 x b') ∧
      (∃ x b', ∀ (ρ : Type) (k8 : U8 → Block μ → ρ) (k16 : U16 → Block μ → ρ),
        gate p (absolute bus c) k8 k16 b = k16 x b'))

/-! ### Frames and whole-machine rules -/

/-- What SEI and the loads leave unchanged: PB, PC, DB, memory, the configuration and the phase; P but for I under SEI; A
under SEI (42_execute.md R119); A's high byte under an 8-bit load (R110, R113; 10_state.md R21). For an 8-bit immediate in a
state whose P.W is 1, which no step brings to exec, the high byte's clause is the model's choice (DEDUCED, log 12). -/
def Obligations.LoadsAndSeiFrame : Prop :=
  ∀ (i : Instr) (s t : State), (∀ offset, i ≠ .stzAbs offset) → exec i s = .next t →
    t.regs.pb = s.regs.pb ∧ t.regs.pc = s.regs.pc ∧ t.regs.db = s.regs.db ∧
    t.phase = s.phase ∧ t.params = s.params ∧ (∀ x : Addr, t.mem.read x.phys = s.mem.read x.phys) ∧
    (i ≠ .sei → t.regs.p = s.regs.p) ∧ (∀ k, k ≠ 2 → t.regs.p.getLsbD k = s.regs.p.getLsbD k) ∧
    (i = .sei → t.regs.a = s.regs.a ∧ t.trace = s.trace) ∧
    (∀ v, i = .ldaImm v → t.trace = s.trace) ∧
    (∀ v, i = .ldaImm (.w8 v) → highByte t.regs.a = highByte s.regs.a) ∧
    (∀ offset, i = .ldaAbs offset → s.regs.p.getLsbD 5 = false → highByte t.regs.a = highByte s.regs.a)

/-- What STZ abs leaves unchanged: every register and flag, the configuration, the phase, and every byte of memory but the
one or two at the address the meaning stores to (42_execute.md R118, R119). -/
def Obligations.StoreFrame : Prop :=
  ∀ (offset : U16) (s t : State), s.mem.wf = true → exec (.stzAbs offset) s = .next t →
    t.regs = s.regs ∧ t.phase = s.phase ∧ t.params = s.params ∧
    ∀ a : Addr, s.regs.dataAddr offset = a →
      t.mem.read a.phys = 0x00#8 ∧
      (s.regs.p.getLsbD 5 = true → t.mem.read (nextAddr s.params.absBankCross a).phys = 0x00#8) ∧
      ∀ x : Addr, x ≠ a → (s.regs.p.getLsbD 5 = true → x ≠ nextAddr s.params.absBankCross a) →
        t.mem.read x.phys = s.mem.read x.phys

/-- No step changes PB, DB, W or the configuration (10_state.md R12, R14, R18). -/
def Obligations.NoStepChangesBanksOrWidth : Prop :=
  ∀ s t : State, step s = .next t →
    t.regs.pb = s.regs.pb ∧ t.regs.db = s.regs.db ∧ t.regs.p.getLsbD 5 = s.regs.p.getLsbD 5 ∧ t.params = s.params

/-- A step that completes moves PC on by the length of the instruction it decoded, mod 2^16 (10_state.md R13). -/
def Obligations.CompletedStepAdvancesPcByLength : Prop :=
  ∀ s t : State, step s = .next t →
    ∃ i, decode s.params (widthOf s.regs.p) s.stream = .ok i ∧
      t.regs.pc.toNat = (s.regs.pc.toNat + i.length) % 65536

/-- Only SEI writes P, and it only sets I (10_state.md R19; 42_execute.md R119). -/
def Obligations.OnlySeiWritesFlags : Prop :=
  ∀ s t : State, step s = .next t →
    t.regs.p = if streamByte s 0#16 = 0x78#8 then s.regs.p ||| 0x04#8 else s.regs.p

/-- Only the loads write A, and at 8 bits they keep its high byte (10_state.md R21; 42_execute.md R119). -/
def Obligations.OnlyLoadsWriteTheAccumulator : Prop :=
  ∀ s t : State, step s = .next t →
    (streamByte s 0#16 = 0x78#8 ∨ streamByte s 0#16 = 0x9C#8 → t.regs.a = s.regs.a) ∧
    (s.regs.p.getLsbD 5 = false → highByte t.regs.a = highByte s.regs.a)

/-- Only STZ abs writes memory: every other step that completes leaves all of it (20_memory.md R40; 42_execute.md R119). -/
def Obligations.OnlyStzWritesMemory : Prop :=
  ∀ s t : State, step s = .next t → streamByte s 0#16 ≠ 0x9C#8 → ∀ x : Addr, t.mem.read x.phys = s.mem.read x.phys

/-- The bank-crossing rule shows only in a 16-bit data access at offset 0xFFFF: on any other instruction both settings
give the same step (20_memory.md R35). -/
def Obligations.BankCrossRuleShowsOnlyAtTheBankEnd : Prop :=
  ∀ (s t : State) (c : AbsBankCross), step s = .next t →
    (s.regs.p.getLsbD 5 = false ∨ streamByte s 0#16 = 0x78#8 ∨ streamByte s 0#16 = 0xA9#8 ∨
      (streamDataAddr s).offset ≠ 0xFFFF#16) →
    step (withCross c s) = .next (withCross c t)

/-- A store is seen by the very next fetch: STZ over the opcode that follows it makes the next step fail on opcode 0x00
(20_memory.md R44; 95_test_vectors.md P5). -/
def Obligations.StoreIsSeenByTheNextFetch : Prop :=
  ∀ s : State, s.Inv → s.params.ldaAbsOpcode ≠ some 0x00#8 → streamByte s 0#16 = 0x9C#8 → s.regs.db = s.regs.pb →
    (streamDataAddr s).offset = s.regs.pc + 3#16 →
    ∃ t, step s = .next t ∧ step t = .fault (.decodeFailure ⟨0x00#8, s.regs.pb, s.regs.pc + 3#16⟩)

/-! ### Invariants -/

/-- The state after reset is legal, and so is the state after the first reset for every well-formed configuration, every
draw A_RESET and every initial contents. -/
def Obligations.ResetIsLegal : Prop :=
  State.reset.Inv ∧
  ∀ (p : Params) (aReset : U16) (m : Memory), p.wf = true → m.wf = true → (State.boot p aReset m).Inv

/-- Every step keeps a state legal: Ready, the configuration well formed, memory in canonical form. -/
def Obligations.StepKeepsStateLegal : Prop :=
  ∀ s t : State, s.Inv → step s = .next t → t.Inv

/-- Every run of the driving loop, with steps, resets and register writes in any order, keeps a state legal
(40_dispatch.md R80; 10_state.md R24; 70_reset_and_hazards.md R151). -/
def Obligations.EveryRunKeepsStateLegal : Prop :=
  ∀ (ms : List Move) (s t : State), s.Inv → drive ms s = .next t → t.Inv

/-- However many steps run, only the host changes W, DB or PB: a run of steps alone leaves them, and never clears I
(10_state.md R18, R19, R24; 70_reset_and_hazards.md R152). -/
def Obligations.OnlyTheHostChangesWidthOrBanks : Prop :=
  ∀ (ms : List Move) (s t : State), (∀ m ∈ ms, m = .step) → drive ms s = .next t →
    t.regs.pb = s.regs.pb ∧ t.regs.db = s.regs.db ∧ t.regs.p.getLsbD 5 = s.regs.p.getLsbD 5 ∧
    (s.regs.p.getLsbD 2 = true → t.regs.p.getLsbD 2 = true)

/-- How a driven run ends: in a fault exactly when the moves before some step all complete, in a state between steps whose
opcode at (PB, PC) is unbound, and the fault is that state's decode failure (40_dispatch.md R80; 60_exceptions.md R130). From
a legal state a run ends no other way than by completing or by a fault. -/
def Obligations.DrivenRunEndsInTheFirstDecodeFailure : Prop :=
  ∀ (ms : List Move) (s : State),
    (∀ f : Fault, drive ms s = .fault f ↔
      ∃ (before after : List Move) (t : State), ms = before ++ .step :: after ∧ drive before s = .next t ∧
        Steppable t ∧ ¬ BoundOpcode t.params (streamByte t 0#16) ∧
        f = .decodeFailure ⟨streamByte t 0#16, t.regs.pb, t.regs.pc⟩) ∧
    (s.Inv → SafeDrive ms s ∨ ∃ f, drive ms s = .fault f)

/-! ### Reset and the host port -/

/-- What the reset entry point does (70_reset_and_hazards.md R150): PC from the vector, low byte first, every other register
at its reset value, A at the draw, memory unchanged, the phase Ready; before the first reset and at any later one between
steps. -/
def Obligations.ResetLoadsEveryRegister : Prop :=
  ∀ (aReset : U16) (s : State), s.phase ≠ .executing → s.params.wf = true →
    let lo := s.mem.read (⟨0x00#8, 0xFFFC#16⟩ : Addr).phys
    let hi := s.mem.read (⟨0x00#8, 0xFFFD#16⟩ : Addr).phys
    resetEntry aReset s =
      .next { regs := { pb := 0x00#8, pc := word16 hi lo, db := 0x00#8, a := aReset, p := 0x04#8 }
              mem := s.mem
              trace := [.read ⟨0x00#8, 0xFFFC#16⟩ lo, .read ⟨0x00#8, 0xFFFD#16⟩ hi]
              phase := .ready
              params := s.params }

/-- Reset with any collaborator: the two vector reads, low byte first, and every register overwritten
(70_reset_and_hazards.md R150). -/
def Obligations.ResetReadsTheVectorOnAnyBus : Prop :=
  ∀ (μ : Type) (bus : Bus μ) (aReset : U16) (b : Block μ),
    let lo := bus.read b.mem ⟨0x00#8, 0xFFFC#16⟩
    let hi := bus.read lo.2 ⟨0x00#8, 0xFFFD#16⟩
    b.reset bus aReset =
      { regs := { pb := 0x00#8, pc := word16 hi.1 lo.1, db := 0x00#8, a := aReset, p := 0x04#8 }
        mem := hi.2
        trace := [.read ⟨0x00#8, 0xFFFC#16⟩ lo.1, .read ⟨0x00#8, 0xFFFD#16⟩ hi.1] }

/-- Reset forgets the registers: what it leaves depends on memory, the configuration and the draw alone
(70_reset_and_hazards.md R151). -/
def Obligations.ResetForgetsTheRegisters : Prop :=
  ∀ (aReset : U16) (s s' : State), s.mem = s'.mem → s.params = s'.params → s.phase ≠ .executing →
    s'.phase ≠ .executing → resetEntry aReset s = resetEntry aReset s'

/-- A reset is refused during a step, and in an ill-formed configuration (10_state.md R24; 30_encoding.md R55). -/
def Obligations.ResetRefusals : Prop :=
  ∀ (aReset : U16) (s : State),
    (s.phase = .executing → resetEntry aReset s = .refused .duringStep) ∧
    (s.phase ≠ .executing → s.params.wf = false → resetEntry aReset s = .refused .illFormedConfiguration)

/-- The named state after reset: the registers 10_state.md R25 gives, A the free draw; memory lists nothing, so that PC is
0x0000, which is the model's choice (log 1, log 14), and LDA abs is unbound, the spec's default (log 5). -/
def Obligations.StateAfterReset : Prop :=
  State.reset.regs = { pb := 0x00#8, pc := 0x0000#16, db := 0x00#8, a := Config.aReset, p := 0x04#8 } ∧
  State.reset.mem = [] ∧ State.reset.phase = .ready ∧ State.reset.params.ldaAbsOpcode = none ∧
  flagI State.reset.regs.p = true ∧ widthOf State.reset.regs.p = .w8

/-- A write at the host port sets its register and no other, at full width, and reads back; memory, the trace, the phase and
the configuration stay (10_state.md R15, R24). -/
def Obligations.HostWriteSetsOneRegister : Prop :=
  ∀ (w : HostWrite) (s : State), s.phase = .ready →
    ∃ r : RegFile, hostWrite w s = .next { s with regs := r } ∧
      (∀ v, w = .pb v → r = { s.regs with pb := v }) ∧ (∀ v, w = .pc v → r = { s.regs with pc := v }) ∧
      (∀ v, w = .db v → r = { s.regs with db := v }) ∧ (∀ v, w = .a v → r = { s.regs with a := v }) ∧
      (∀ v, w = .p v → r = { s.regs with p := v }) ∧
      hostRead .pb { s with regs := r } = .ok (.w8 r.pb) ∧ hostRead .pc { s with regs := r } = .ok (.w16 r.pc) ∧
      hostRead .db { s with regs := r } = .ok (.w8 r.db) ∧ hostRead .a { s with regs := r } = .ok (.w16 r.a) ∧
      hostRead .p { s with regs := r } = .ok (.w8 r.p)

/-- The host port is refused before the first reset and during a step (10_state.md R24, R27). -/
def Obligations.HostPortIsRefusedOutsideReady : Prop :=
  ∀ (w : HostWrite) (reg : Reg) (s : State),
    (s.phase = .beforeReset → hostWrite w s = .refused .beforeReset ∧ hostRead reg s = .error .beforeReset) ∧
    (s.phase = .executing → hostWrite w s = .refused .duringStep ∧ hostRead reg s = .error .duringStep)

/-! ### Safe runs -/

/-- From a legal state `n` steps all complete exactly when none of the states they start from has an unbound opcode at
(PB, PC): the decode failure is the only thing that ends a run of steps (40_dispatch.md R77, R80; 60_exceptions.md R131). -/
def Obligations.StepsCompleteExactlyWhileOpcodesAreBound : Prop :=
  ∀ (n : Nat) (s : State), s.Inv →
    (SafeRun n s ↔
      ∀ (k : Nat) (t : State), k < n → Host.Core.run core k s = .next t →
        BoundOpcode t.params (streamByte t 0#16))
end

