-- ==== Sys2Proof/Laws/Bytes.lean ====
section
/-! SUPPORT. Bytes and addresses: taking a word apart and putting it together, and the physical address. -/

namespace Sys2Proof

/-- The value of a word is its low byte plus 256 times its high byte (20_memory.md R37). -/
theorem word16_toNat (hi lo : U8) : (word16 hi lo).toNat = 256 * hi.toNat + lo.toNat := by
  have h : lo.toNat < 2 ^ 8 := lo.isLt
  rw [word16, BitVec.toNat_append, Nat.shiftLeft_eq, Nat.mul_comm, ← Nat.two_pow_add_eq_or_of_lt h]

/-- The low byte as a number. -/
theorem lowByte_toNat (v : U16) : (lowByte v).toNat = v.toNat % 256 := by
  simp [lowByte, BitVec.extractLsb'_toNat]

/-- The high byte as a number. -/
theorem highByte_toNat (v : U16) : (highByte v).toNat = v.toNat / 256 := by
  have h : v.toNat < 65536 := v.isLt
  rw [highByte, BitVec.extractLsb'_toNat, Nat.shiftRight_eq_div_pow]
  omega

@[simp] theorem lowByte_word16 (hi lo : U8) : lowByte (word16 hi lo) = lo := by
  have h : lo.toNat < 256 := lo.isLt
  rw [← BitVec.toNat_inj, lowByte_toNat, word16_toNat]
  omega

@[simp] theorem highByte_word16 (hi lo : U8) : highByte (word16 hi lo) = hi := by
  have h : lo.toNat < 256 := lo.isLt
  rw [← BitVec.toNat_inj, highByte_toNat, word16_toNat]
  omega

@[simp] theorem word16_high_low (v : U16) : word16 (highByte v) (lowByte v) = v := by
  rw [← BitVec.toNat_inj, word16_toNat, lowByte_toNat, highByte_toNat]
  omega

/-- The physical address as a number (20_memory.md R31). -/
theorem Addr.phys_eq (a : Addr) : a.phys = 65536 * a.bank.toNat + a.offset.toNat := by
  have h : a.offset.toNat < 2 ^ 16 := a.offset.isLt
  rw [Addr.phys, BitVec.toNat_append, Nat.shiftLeft_eq, Nat.mul_comm, ← Nat.two_pow_add_eq_or_of_lt h]

/-- Every address lies in the address space. -/
theorem Addr.phys_lt (a : Addr) : a.phys < addressSpace := by
  have h₁ : a.bank.toNat < 256 := a.bank.isLt
  have h₂ : a.offset.toNat < 65536 := a.offset.isLt
  rw [Addr.phys_eq, addressSpace]
  omega

/-- Two addresses with one physical address are one address. -/
theorem Addr.phys_inj {a b : Addr} : a.phys = b.phys ↔ a = b := by
  constructor
  · intro h
    have h₁ : a.offset.toNat < 65536 := a.offset.isLt
    have h₂ : b.offset.toNat < 65536 := b.offset.isLt
    rw [Addr.phys_eq, Addr.phys_eq] at h
    cases a
    cases b
    simp only [Addr.mk.injEq, ← BitVec.toNat_inj] at *
    omega
  · rintro rfl
    rfl

end Sys2Proof
end

