-- ==== Sys2Proof/Laws/Decode.lean ====
section
/-! SUPPORT. What the decoder can answer, said once by the stream's first byte. -/

namespace Sys2Proof

variable {p : Params} {w : Width} {stream : Nat → U8}

theorem decode_sei (h : stream 0 = 0x78#8) : decode p w stream = .ok .sei :=
  if_pos h

theorem decode_stzAbs (h : stream 0 = 0x9C#8) :
    decode p w stream = .ok (.stzAbs (word16 (stream 2) (stream 1))) := by
  have h₁ : ¬ stream 0 = opcodeSei := by rw [h]; decide
  exact (if_neg h₁).trans (if_pos h)

theorem decode_ldaImm8 (h : stream 0 = 0xA9#8) : decode p .w8 stream = .ok (.ldaImm (.w8 (stream 1))) := by
  have h₁ : ¬ stream 0 = opcodeSei := by rw [h]; decide
  have h₂ : ¬ stream 0 = opcodeStzAbs := by rw [h]; decide
  exact ((if_neg h₁).trans (if_neg h₂)).trans (if_pos h)

theorem decode_ldaImm16 (h : stream 0 = 0xA9#8) :
    decode p .w16 stream = .ok (.ldaImm (.w16 (word16 (stream 2) (stream 1)))) := by
  have h₁ : ¬ stream 0 = opcodeSei := by rw [h]; decide
  have h₂ : ¬ stream 0 = opcodeStzAbs := by rw [h]; decide
  exact ((if_neg h₁).trans (if_neg h₂)).trans (if_pos h)

theorem decode_ldaAbs (h₁ : stream 0 ≠ 0x78#8) (h₂ : stream 0 ≠ 0x9C#8) (h₃ : stream 0 ≠ 0xA9#8)
    (h : p.ldaAbsOpcode = some (stream 0)) :
    decode p w stream = .ok (.ldaAbs (word16 (stream 2) (stream 1))) :=
  (((if_neg h₁).trans (if_neg h₂)).trans (if_neg h₃)).trans (if_pos h)

theorem decode_unbound (h₁ : stream 0 ≠ 0x78#8) (h₂ : stream 0 ≠ 0x9C#8) (h₃ : stream 0 ≠ 0xA9#8)
    (h : p.ldaAbsOpcode ≠ some (stream 0)) : decode p w stream = .error (.unbound (stream 0)) :=
  (((if_neg h₁).trans (if_neg h₂)).trans (if_neg h₃)).trans (if_neg h)

/-- A well-formed configuration binds "LDA abs" to no opcode of the fixed map (30_encoding.md R55). -/
theorem Params.wf_some {op : U8} (h : p.wf = true) (hop : p.ldaAbsOpcode = some op) :
    op ≠ 0x78#8 ∧ op ≠ 0x9C#8 ∧ op ≠ 0xA9#8 := by
  rw [Params.wf, hop] at h
  simpa [opcodeSei, opcodeStzAbs, opcodeLdaImm, and_assoc] using h

/-- Everything the decoder can answer, by the first byte (30_encoding.md R54 to R56). -/
theorem decode_cases (p : Params) (w : Width) (stream : Nat → U8) :
    (stream 0 = 0x78#8 ∧ decode p w stream = .ok .sei) ∨
    (stream 0 = 0x9C#8 ∧ decode p w stream = .ok (.stzAbs (word16 (stream 2) (stream 1)))) ∨
    (stream 0 = 0xA9#8 ∧ w = .w8 ∧ decode p w stream = .ok (.ldaImm (.w8 (stream 1)))) ∨
    (stream 0 = 0xA9#8 ∧ w = .w16 ∧ decode p w stream = .ok (.ldaImm (.w16 (word16 (stream 2) (stream 1))))) ∨
    (stream 0 ≠ 0x78#8 ∧ stream 0 ≠ 0x9C#8 ∧ stream 0 ≠ 0xA9#8 ∧ p.ldaAbsOpcode = some (stream 0) ∧
      decode p w stream = .ok (.ldaAbs (word16 (stream 2) (stream 1)))) ∨
    (stream 0 ≠ 0x78#8 ∧ stream 0 ≠ 0x9C#8 ∧ stream 0 ≠ 0xA9#8 ∧ p.ldaAbsOpcode ≠ some (stream 0) ∧
      decode p w stream = .error (.unbound (stream 0))) := by
  by_cases h₁ : stream 0 = 0x78#8
  · exact .inl ⟨h₁, decode_sei h₁⟩
  by_cases h₂ : stream 0 = 0x9C#8
  · exact .inr (.inl ⟨h₂, decode_stzAbs h₂⟩)
  by_cases h₃ : stream 0 = 0xA9#8
  · cases w with
    | w8 => exact .inr (.inr (.inl ⟨h₃, rfl, decode_ldaImm8 h₃⟩))
    | w16 => exact .inr (.inr (.inr (.inl ⟨h₃, rfl, decode_ldaImm16 h₃⟩)))
  by_cases h : p.ldaAbsOpcode = some (stream 0)
  · exact .inr (.inr (.inr (.inr (.inl ⟨h₁, h₂, h₃, h, decode_ldaAbs h₁ h₂ h₃ h⟩))))
  · exact .inr (.inr (.inr (.inr (.inr ⟨h₁, h₂, h₃, h, decode_unbound h₁ h₂ h₃ h⟩))))

end Sys2Proof
end

