-- ==== Sys2Proof/Laws/Memory.lean ====
section
/-! SUPPORT. The reference RAM: a read after a write, and that every operation keeps the canonical form. -/

namespace Sys2Proof.Machine

@[simp] theorem Memory.read_nil (a : Nat) : Memory.read [] a = unlistedByte := rfl

/-- The canonical form in pieces: the first cell says something of its own, lies below the rest, and the rest is
canonical. -/
theorem Memory.wf_cons {k : Nat} {x : U8} {rest : Memory} :
    Memory.wf ((k, x) :: rest) = true ↔
      (k < addressSpace ∧ x ≠ unlistedByte) ∧ (∀ c ∈ rest, k < c.1) ∧ Memory.wf rest = true := by
  simp only [Memory.wf, List.pairwise_cons, List.all_cons, Bool.and_eq_true, decide_eq_true_eq]
  tauto

/-- Below every listed address a memory reads as if nothing were listed. -/
theorem Memory.read_of_lt {m : Memory} {a : Nat} (h : ∀ c ∈ m, a < c.1) : m.read a = unlistedByte := by
  induction m with
  | nil => rfl
  | cons c rest ih =>
    obtain ⟨k, x⟩ := c
    have hk : a < k := h (k, x) (by simp)
    rw [Memory.read, if_neg (by omega)]
    exact ih fun c hc => h c (by simp [hc])

theorem Memory.mem_cons {a : Nat} {v : U8} {rest : Memory} {c : Host.Cell} (h : c ∈ Memory.cons a v rest) :
    c = (a, v) ∨ c ∈ rest := by
  unfold Memory.cons at h
  split at h
  · exact .inr h
  · simpa using h

theorem Memory.mem_write {m : Memory} {a : Nat} {v : U8} {c : Host.Cell} (h : c ∈ m.write a v) :
    c.1 = a ∨ c ∈ m := by
  induction m with
  | nil =>
    rcases Memory.mem_cons h with rfl | h
    · exact .inl rfl
    · exact .inr h
  | cons d rest ih =>
    obtain ⟨k, x⟩ := d
    simp only [Memory.write] at h
    split at h
    · rcases Memory.mem_cons h with rfl | h
      · exact .inl rfl
      · exact .inr h
    · split at h
      · rcases Memory.mem_cons h with rfl | h
        · exact .inl rfl
        · exact .inr (by simp [h])
      · rcases List.mem_cons.mp h with rfl | h
        · exact .inr (by simp)
        · rcases ih h with h | h
          · exact .inl h
          · exact .inr (by simp [h])

theorem Memory.cons_wf {a : Nat} {v : U8} {rest : Memory} (ha : a < addressSpace) (hr : rest.wf = true)
    (h : ∀ c ∈ rest, a < c.1) : (Memory.cons a v rest).wf = true := by
  unfold Memory.cons
  split
  · exact hr
  · exact Memory.wf_cons.mpr ⟨⟨ha, ‹_›⟩, h, hr⟩

/-- A write inside the address space keeps the canonical form. -/
theorem Memory.write_wf {m : Memory} {a : Nat} (v : U8) (ha : a < addressSpace) (h : m.wf = true) :
    (m.write a v).wf = true := by
  induction m with
  | nil => exact Memory.cons_wf ha h (by simp)
  | cons d rest ih =>
    obtain ⟨k, x⟩ := d
    obtain ⟨hc, hlt, hr⟩ := Memory.wf_cons.mp h
    simp only [Memory.write]
    split
    · refine Memory.cons_wf ha h fun c hc' => ?_
      rcases List.mem_cons.mp hc' with rfl | hc'
      · assumption
      · have := hlt c hc'
        omega
    · split
      · subst a
        exact Memory.cons_wf ha hr hlt
      · refine Memory.wf_cons.mpr ⟨hc, fun c hc' => ?_, ih hr⟩
        rcases Memory.mem_write hc' with h' | h'
        · omega
        · exact hlt c h'

theorem Memory.read_cons {a : Nat} {v : U8} {rest : Memory} (h : ∀ c ∈ rest, a < c.1) (x : Nat) :
    (Memory.cons a v rest).read x = if a = x then v else rest.read x := by
  unfold Memory.cons
  split
  · subst v
    split
    · subst x
      exact Memory.read_of_lt h
    · rfl
  · rfl

/-- A read after a write gives the byte written, and every other byte is as before (20_memory.md R40). -/
theorem Memory.read_write {m : Memory} (h : m.wf = true) (a x : Nat) (v : U8) :
    (m.write a v).read x = if a = x then v else m.read x := by
  induction m with
  | nil => exact Memory.read_cons (by simp) x
  | cons d rest ih =>
    obtain ⟨k, y⟩ := d
    obtain ⟨hc, hlt, hr⟩ := Memory.wf_cons.mp h
    simp only [Memory.write]
    split
    · refine Memory.read_cons (fun c hc' => ?_) x
      rcases List.mem_cons.mp hc' with rfl | hc'
      · assumption
      · have := hlt c hc'
        omega
    · split
      · subst a
        rw [Memory.read_cons hlt, Memory.read]
        split <;> rfl
      · simp only [Memory.read, ih hr]
        split
        · rw [if_neg (by omega)]
        · rfl

end Sys2Proof.Machine
end

