-- ==== Sys2Proof/Laws/State.lean ====
section
/-! SUPPORT. One lemma per field per update, so that no proof unfolds a record update. -/

namespace Sys2Proof.Machine

variable {μ : Type}

/-! ### Register updates -/

@[simp] theorem RegFile.setA_pb (r : RegFile) (v : U16) : (r.setA v).pb = r.pb := rfl
@[simp] theorem RegFile.setA_pc (r : RegFile) (v : U16) : (r.setA v).pc = r.pc := rfl
@[simp] theorem RegFile.setA_db (r : RegFile) (v : U16) : (r.setA v).db = r.db := rfl
@[simp] theorem RegFile.setA_a (r : RegFile) (v : U16) : (r.setA v).a = v := rfl
@[simp] theorem RegFile.setA_p (r : RegFile) (v : U16) : (r.setA v).p = r.p := rfl

@[simp] theorem RegFile.setP_pb (r : RegFile) (v : U8) : (r.setP v).pb = r.pb := rfl
@[simp] theorem RegFile.setP_pc (r : RegFile) (v : U8) : (r.setP v).pc = r.pc := rfl
@[simp] theorem RegFile.setP_db (r : RegFile) (v : U8) : (r.setP v).db = r.db := rfl
@[simp] theorem RegFile.setP_a (r : RegFile) (v : U8) : (r.setP v).a = r.a := rfl
@[simp] theorem RegFile.setP_p (r : RegFile) (v : U8) : (r.setP v).p = v := rfl

@[simp] theorem RegFile.setPc_pb (r : RegFile) (v : U16) : (r.setPc v).pb = r.pb := rfl
@[simp] theorem RegFile.setPc_pc (r : RegFile) (v : U16) : (r.setPc v).pc = v := rfl
@[simp] theorem RegFile.setPc_db (r : RegFile) (v : U16) : (r.setPc v).db = r.db := rfl
@[simp] theorem RegFile.setPc_a (r : RegFile) (v : U16) : (r.setPc v).a = r.a := rfl
@[simp] theorem RegFile.setPc_p (r : RegFile) (v : U16) : (r.setPc v).p = r.p := rfl
@[simp] theorem RegFile.setPc_setPc (r : RegFile) (v w : U16) : (r.setPc v).setPc w = r.setPc w := rfl
@[simp] theorem RegFile.setPc_self (r : RegFile) : r.setPc r.pc = r := rfl

/-! ### Block updates -/

@[simp] theorem Block.setRegs_regs (b : Block μ) (r : RegFile) : (b.setRegs r).regs = r := rfl
@[simp] theorem Block.setRegs_mem (b : Block μ) (r : RegFile) : (b.setRegs r).mem = b.mem := rfl
@[simp] theorem Block.setRegs_trace (b : Block μ) (r : RegFile) : (b.setRegs r).trace = b.trace := rfl

@[simp] theorem Block.beginTrace_regs (b : Block μ) : b.beginTrace.regs = b.regs := rfl
@[simp] theorem Block.beginTrace_mem (b : Block μ) : b.beginTrace.mem = b.mem := rfl
@[simp] theorem Block.beginTrace_trace (b : Block μ) : b.beginTrace.trace = [] := rfl

/-! ### Bus calls -/

@[simp] theorem busRead_regs (bus : Bus μ) (a : Addr) (b : Block μ) : (busRead bus a b).2.regs = b.regs := rfl
@[simp] theorem busRead_trace (bus : Bus μ) (a : Addr) (b : Block μ) :
    (busRead bus a b).2.trace = b.trace ++ [.read a (busRead bus a b).1] := rfl
@[simp] theorem busWrite_regs (bus : Bus μ) (a : Addr) (v : U8) (b : Block μ) : (busWrite bus a v b).regs = b.regs := rfl
@[simp] theorem busWrite_mem (bus : Bus μ) (a : Addr) (v : U8) (b : Block μ) :
    (busWrite bus a v b).mem = bus.write b.mem a v := rfl
@[simp] theorem busWrite_trace (bus : Bus μ) (a : Addr) (v : U8) (b : Block μ) :
    (busWrite bus a v b).trace = b.trace ++ [.write a v] := rfl

@[simp] theorem ramBus_read (m : Memory) (a : Addr) : ramBus.read m a = (m.read a.phys, m) := rfl
@[simp] theorem ramBus_write (m : Memory) (a : Addr) (v : U8) : ramBus.write m a v = m.write a.phys v := rfl

/-! ### Machine updates -/

@[simp] theorem State.afterReset_phase (d : U16) (s : State) : (s.afterReset d).phase = .ready := rfl
@[simp] theorem State.afterReset_params (d : U16) (s : State) : (s.afterReset d).params = s.params := rfl
@[simp] theorem State.fetched_phase (i : Instr) (s : State) : (s.fetched i).phase = .executing := rfl
@[simp] theorem State.fetched_params (i : Instr) (s : State) : (s.fetched i).params = s.params := rfl

end Sys2Proof.Machine
end

