-- ==== Sys2Proof/Laws/Ops.lean ====
section
/-! SUPPORT. One lemma per shared operation: everything it can do, on the reference RAM or on any collaborator. -/

namespace Sys2Proof.Machine

variable {μ ρ : Type}

/-! ### The reference RAM -/

/-- A bus read of the RAM: the byte there, one trace entry, nothing else. -/
theorem busRead_ram (a : Addr) (b : Block Memory) :
    busRead ramBus a b =
      (b.mem.read a.phys, { b with trace := b.trace ++ [.read a (b.mem.read a.phys)] }) := rfl

/-- A fetch from the RAM: the byte at (PB, PC), PC one on, one trace entry (20_memory.md R33). -/
theorem fetch_ram (b : Block Memory) :
    fetch ramBus b =
      (b.mem.read b.regs.fetchAddr.phys,
        { regs := b.regs.setPc (b.regs.pc + 1#16), mem := b.mem
          trace := b.trace ++ [.read b.regs.fetchAddr (b.mem.read b.regs.fetchAddr.phys)] }) := rfl

/-- The trace entry of fetching stream byte `k` from the RAM. -/
def streamRead (r : RegFile) (m : Memory) (k : Nat) : BusCall :=
  .read (r.streamAddr k) (m.read (r.streamAddr k).phys)

theorem RegFile.streamAddr_zero (r : RegFile) : r.streamAddr 0 = r.fetchAddr := by
  simp [RegFile.streamAddr, RegFile.fetchAddr]

/-- One byte on, then `k` more. -/
theorem pc_add_succ (pc : U16) (k : Nat) : pc + BitVec.ofNat 16 (k + 1) = pc + 1#16 + BitVec.ofNat 16 k := by
  rw [Nat.add_comm, BitVec.ofNat_add, ← BitVec.add_assoc]

theorem RegFile.streamAddr_succ (r : RegFile) (k : Nat) :
    r.streamAddr (k + 1) = (r.setPc (r.pc + 1#16)).streamAddr k := by
  rw [RegFile.streamAddr, pc_add_succ]
  rfl

/-- The fetches of an instruction of `n` bytes from the RAM: PC `n` on, one read of each stream byte in order. -/
theorem fetchBytes_ram (n : Nat) (b : Block Memory) :
    fetchBytes ramBus n b =
      { regs := b.regs.setPc (b.regs.pc + BitVec.ofNat 16 n), mem := b.mem
        trace := b.trace ++ (List.range n).map (streamRead b.regs b.mem) } := by
  induction n generalizing b with
  | zero => simp [fetchBytes]
  | succ n ih =>
    have h : streamRead (b.regs.setPc (b.regs.pc + 1#16)) b.mem = streamRead b.regs b.mem ∘ Nat.succ := by
      funext k
      simp only [streamRead, Function.comp, Nat.succ_eq_add_one, RegFile.streamAddr_succ]
    rw [fetchBytes, ih, fetch_ram, List.range_succ_eq_map, pc_add_succ b.regs.pc n]
    simp only [h, RegFile.setPc_setPc, RegFile.setPc_pc, List.map_cons, List.map_map, List.append_assoc,
      List.cons_append, List.nil_append, streamRead, RegFile.streamAddr_zero]

/-- The state an instruction's own effect starts from: PC past the instruction, one read of each of its bytes. -/
theorem State.fetched_toBlock (i : Instr) (s : State) :
    (s.fetched i).toBlock =
      { regs := s.regs.setPc (s.regs.pc + BitVec.ofNat 16 i.length), mem := s.mem
        trace := (List.range i.length).map (streamRead s.regs s.mem) } := by
  simp [State.fetched, fetchBytes_ram]

/-! ### Data access -/

/-- The second byte of a 16-bit access never lies at the first one's address (20_memory.md R35). -/
theorem nextAddr_ne (cross : AbsBankCross) (a : Addr) : nextAddr cross a ≠ a := by
  intro h
  have h' := congrArg Addr.offset h
  unfold nextAddr at h'
  split at h'
  · simp at h'
  · cases cross <;> simp_all

/-- An 8-bit store to the RAM: that byte and nothing else. -/
theorem memWrite8_ram_read {b : Block Memory} (h : b.mem.wf = true) (a : Addr) (v : U8) (x : Addr) :
    (memWrite8 ramBus a v b).mem.read x.phys = if x = a then v else b.mem.read x.phys := by
  simp only [memWrite8, busWrite_mem, ramBus_write, Memory.read_write h, Addr.phys_inj, eq_comm]

/-- A 16-bit store to the RAM: the low byte at the address, the high byte at the next one, nothing else
(20_memory.md R36, R37). -/
theorem memWrite16_ram_read {b : Block Memory} (h : b.mem.wf = true) (cross : AbsBankCross) (a : Addr) (v : U16)
    (x : Addr) :
    (memWrite16 ramBus cross a v b).mem.read x.phys =
      if x = nextAddr cross a then highByte v else if x = a then lowByte v else b.mem.read x.phys := by
  simp only [memWrite16, busWrite_mem, ramBus_write,
    Memory.read_write (Memory.write_wf (lowByte v) a.phys_lt h), Memory.read_write h, Addr.phys_inj,
    eq_comm (b := x)]

/-- A 16-bit store to the RAM keeps its canonical form. -/
theorem memWrite16_ram_wf {b : Block Memory} (h : b.mem.wf = true) (cross : AbsBankCross) (a : Addr) (v : U16) :
    (memWrite16 ramBus cross a v b).mem.wf = true :=
  Memory.write_wf _ (Addr.phys_lt _) (Memory.write_wf _ a.phys_lt h)

/-- An 8-bit store to the RAM keeps its canonical form. -/
theorem memWrite8_ram_wf {b : Block Memory} (h : b.mem.wf = true) (a : Addr) (v : U8) :
    (memWrite8 ramBus a v b).mem.wf = true :=
  Memory.write_wf _ a.phys_lt h

/-! ### Control -/

/-- When no step is refused: Ready and a well-formed configuration. -/
theorem State.stepRefusal_none {s : State} :
    s.stepRefusal = none ↔ s.phase = .ready ∧ s.params.wf = true := by
  unfold State.stepRefusal Phase.refusal
  cases s.phase <;> simp

/-- What a finished step can be: the instruction's next state with the phase Ready, or its stop. -/
theorem finishStep_next {r : Result} {t : State} (h : finishStep r = .next t) :
    ∃ s, r = .next s ∧ t = { s with phase := .ready } := by
  cases r with
  | next s => exact ⟨s, rfl, by simpa [finishStep] using h.symm⟩
  | fault f => simp [finishStep] at h
  | refused r => simp [finishStep] at h

end Sys2Proof.Machine
end

