-- ==== Sys2Proof/Laws/Step.lean ====
section
/-! SUPPORT. What a step and an instruction can do, said once. -/

namespace Sys2Proof.Machine

variable {μ : Type}

/-- The width as the flag W gives it (10_state.md R17). -/
theorem widthOf_w8 {p : U8} (h : p.getLsbD 5 = false) : widthOf p = .w8 := by
  rw [widthOf, flagW, h]
  rfl

theorem widthOf_w16 {p : U8} (h : p.getLsbD 5 = true) : widthOf p = .w16 := by
  rw [widthOf, flagW, h]
  rfl

/-- The gate runs the resolver at 8 bits when W is 0 (40_dispatch.md R73). -/
theorem gate_w8 {α β ρ : Type} {p : U8} (h : p.getLsbD 5 = false) (resolver : Width → α → β → ρ) (k8 : α) (k16 : β) :
    gate p resolver k8 k16 = resolver .w8 k8 k16 := by
  rw [gate, widthOf_w8 h]

/-- The gate runs the resolver at 16 bits when W is 1 (40_dispatch.md R73). -/
theorem gate_w16 {α β ρ : Type} {p : U8} (h : p.getLsbD 5 = true) (resolver : Width → α → β → ρ) (k8 : α) (k16 : β) :
    gate p resolver k8 k16 = resolver .w16 k8 k16 := by
  rw [gate, widthOf_w16 h]

/-- What a step that completes did: it was allowed, it decoded an instruction, and the instruction's own effect on the state
after the fetches, made Ready, is the next state. -/
theorem step_next {s t : State} (h : step s = .next t) :
    s.stepRefusal = none ∧ ∃ i u, s.decoded = .ok i ∧ exec i (s.fetched i) = .next u ∧
      t = { u with phase := .ready } := by
  unfold step at h
  split at h
  · cases h
  · split at h
    · obtain ⟨u, hu, ht⟩ := finishStep_next h
      exact ⟨‹_›, _, u, ‹_›, hu, ht⟩
    · cases h

/-- A step that is allowed and decodes an instruction is that instruction's. -/
theorem step_of_decoded {s : State} {i : Instr} (h : s.stepRefusal = none) (hi : s.decoded = .ok i) :
    step s = finishStep (exec i (s.fetched i)) := by
  simp only [step, h, hi]

/-- What an instruction that completes did: an operation of the block; the phase and the configuration stay. -/
theorem exec_next {i : Instr} {s t : State} (h : exec i s = .next t) :
    ∃ b, t = { s with toBlock := b } := by
  cases i with
  | sei => exact ⟨_, (Host.Outcome.next.inj h).symm⟩
  | stzAbs offset => exact ⟨_, (Host.Outcome.next.inj h).symm⟩
  | ldaImm value => cases value <;> exact ⟨_, (Host.Outcome.next.inj h).symm⟩
  | ldaAbs offset => exact ⟨_, (Host.Outcome.next.inj h).symm⟩

/-- The dispatch table by opcode (30_encoding.md R54 to R56; 40_dispatch.md R72). -/
theorem dispatchTable_sei (bus : Bus μ) (p : Params) : dispatchTable bus p 0x78#8 = some entrySei := rfl

theorem dispatchTable_stzAbs (bus : Bus μ) (p : Params) :
    dispatchTable bus p 0x9C#8 = some (entryStzAbs bus p.absBankCross) := rfl

theorem dispatchTable_ldaImm (bus : Bus μ) (p : Params) : dispatchTable bus p 0xA9#8 = some (entryLdaImm bus) := rfl

theorem dispatchTable_ldaAbs (bus : Bus μ) {p : Params} {op : U8} (h₁ : op ≠ 0x78#8) (h₂ : op ≠ 0x9C#8) (h₃ : op ≠ 0xA9#8)
    (h : p.ldaAbsOpcode = some op) : dispatchTable bus p op = some (entryLdaAbs bus p.absBankCross) :=
  (((if_neg h₁).trans (if_neg h₂)).trans (if_neg h₃)).trans (if_pos h)

theorem dispatchTable_unbound (bus : Bus μ) {p : Params} {op : U8} (h₁ : op ≠ 0x78#8) (h₂ : op ≠ 0x9C#8) (h₃ : op ≠ 0xA9#8)
    (h : p.ldaAbsOpcode ≠ some op) : dispatchTable bus p op = none :=
  (((if_neg h₁).trans (if_neg h₂)).trans (if_neg h₃)).trans (if_neg h)

end Sys2Proof.Machine
end

