-- ==== Sys2Proof/Laws/Driver.lean ====
section
/-! SUPPORT. What a run of the driving loop is, said once. -/

namespace Sys2Proof.Machine

@[simp] theorem drive_nil (s : State) : drive [] s = .next s := rfl

/-- A run that completes its first move goes on from there. -/
theorem drive_cons_of_next {m : Move} {s t : State} (h : move m s = .next t) (ms : List Move) :
    drive (m :: ms) s = drive ms t := by
  simp only [drive, h]

/-- A run ends with the fault of its first move. -/
theorem drive_cons_of_fault {m : Move} {s : State} {f : Fault} (h : move m s = .fault f) (ms : List Move) :
    drive (m :: ms) s = .fault f := by
  simp only [drive, h]

/-- A run ends with the refusal of its first move. -/
theorem drive_cons_of_refused {m : Move} {s : State} {r : Refusal} (h : move m s = .refused r) (ms : List Move) :
    drive (m :: ms) s = .refused r := by
  simp only [drive, h]

/-- A run whose first moves complete is the rest of it, from the state they reach. -/
theorem drive_append_of_next {before : List Move} {s t : State} (h : drive before s = .next t) (after : List Move) :
    drive (before ++ after) s = drive after t := by
  induction before generalizing s with
  | nil => cases h; rfl
  | cons m ms ih =>
    cases hm : move m s with
    | next u =>
      rw [drive_cons_of_next hm] at h
      rw [List.cons_append, drive_cons_of_next hm, ih h]
    | fault f => rw [drive_cons_of_fault hm] at h; cases h
    | refused r => rw [drive_cons_of_refused hm] at h; cases h

/-- A reset and a register write never fault: only a step does. -/
theorem move_fault {m : Move} {s : State} {f : Fault} (h : move m s = .fault f) : m = .step := by
  cases m with
  | step => rfl
  | reset aReset =>
    simp only [move, resetEntry] at h
    split at h
    · cases h
    · split at h <;> cases h
    · split at h <;> cases h
  | write w =>
    simp only [move, hostWrite] at h
    split at h <;> cases h

end Sys2Proof.Machine
end

