-- ==== Sys2Proof/Laws/PerInstr.lean ====
section
/-! SUPPORT. Statements about every instruction as syntax, one lemma per constructor. -/

namespace Sys2Proof.Laws.EncodedLength

/-- The encoding of an instruction has its length (30_encoding.md R51). -/
def Statement (i : Instr) : Prop :=
  ∀ (p : Params) (bytes : List U8), encode p i = some bytes → bytes.length = i.length

theorem sei : Statement .sei := by
  intro p bytes h
  obtain rfl := Option.some.inj h
  rfl

theorem stzAbs (offset : U16) : Statement (.stzAbs offset) := by
  intro p bytes h
  obtain rfl := Option.some.inj h
  rfl

theorem ldaImm (value : Sized) : Statement (.ldaImm value) := by
  intro p bytes h
  cases value <;> (obtain rfl := Option.some.inj h; rfl)

theorem ldaAbs (offset : U16) : Statement (.ldaAbs offset) := by
  intro p bytes h
  obtain ⟨op, -, rfl⟩ := Option.map_eq_some_iff.mp h
  rfl

end Sys2Proof.Laws.EncodedLength
end

