-- ==== Sys2Proof/Machine/Assembler.lean ====
section
/-! DEFINITION. The assembler notation of the instructions (30_encoding.md R57), for reading only: no step uses it. -/

namespace Sys2Proof.Machine

/-- A hexadecimal digit, as the spec writes it. -/
def hexDigit (n : Nat) : Char :=
  ("0123456789ABCDEF".toList).getD n '?'

/-- The `k` low hexadecimal digits of a number, most significant first. -/
def hexDigits : Nat → Nat → List Char
  | 0, _ => []
  | k + 1, n => hexDigits k (n / 16) ++ [hexDigit (n % 16)]

/-- An instruction in the assembler notation of the spec (R57): `#` marks an immediate, `$` a hexadecimal number of two
digits at 8 bits and four at 16. -/
def asm : Instr → List Char
  | .sei => "SEI".toList
  | .stzAbs off => "STZ $".toList ++ hexDigits 4 off.toNat
  | .ldaImm (.w8 v) => "LDA #$".toList ++ hexDigits 2 v.toNat
  | .ldaImm (.w16 v) => "LDA #$".toList ++ hexDigits 4 v.toNat
  | .ldaAbs off => "LDA $".toList ++ hexDigits 4 off.toNat

end Sys2Proof.Machine
end

