-- ==== Sys2Proof/Tests/Slice0.lean ====
section
/-! SUPPORT. The model's own tests. Expected results are the spec's (95_test_vectors.md, or the encoding tables), the row
named at each test. -/

namespace Sys2Proof.Tests

open Machine

/-! ### Helpers -/

/-- A machine between steps. -/
def machine (cross : AbsBankCross) (lda : Option U8) (regs : RegFile) (mem : Memory) : State :=
  { regs := regs, mem := mem, trace := [], phase := .ready, params := ⟨cross, lda⟩ }

def regsOf : Result → Option RegFile
  | .next s => some s.regs
  | _ => none

def traceOf : Result → Option (List BusCall)
  | .next s => some s.trace
  | _ => none

def memOf : Result → Option Memory
  | .next s => some s.mem
  | _ => none

def faultOf : Result → Option Fault
  | .fault f => some f
  | _ => none

def refusalOf : Result → Option Refusal
  | .refused r => some r
  | _ => none

/-- A stream with the given bytes, zeros after them. -/
def bytes (bs : List U8) (k : Nat) : U8 := bs.getD k 0x00#8

/-! ### Well-formedness: each check refuses an ill-formed term (30_encoding.md R53, R55) -/

theorem test_wf_refuses_lda_abs_on_sei_opcode : (Params.mk .wrapInBank (some 0x78#8)).wf = false := by decide
theorem test_wf_refuses_lda_abs_on_stz_opcode : (Params.mk .wrapInBank (some 0x9C#8)).wf = false := by decide
theorem test_wf_refuses_lda_abs_on_lda_imm_opcode : (Params.mk .wrapInBank (some 0xA9#8)).wf = false := by decide
theorem test_wf_accepts_lda_abs_opcode : (Params.mk .wrapInBank (some 0xAD#8)).wf = true := by decide
theorem test_wf_refuses_wide_immediate_at_w8 :
    (Instr.ldaImm (.w16 0x1234#16)).wellFormed ⟨.wrapInBank, none⟩ .w8 = false := by decide
theorem test_wf_refuses_narrow_immediate_at_w16 :
    (Instr.ldaImm (.w8 0x42#8)).wellFormed ⟨.wrapInBank, none⟩ .w16 = false := by decide
theorem test_wf_refuses_unbound_lda_abs :
    (Instr.ldaAbs 0x2000#16).wellFormed ⟨.wrapInBank, none⟩ .w8 = false := by decide
theorem test_wf_refuses_ill_formed_configuration :
    Instr.sei.wellFormed ⟨.wrapInBank, some 0x78#8⟩ .w8 = false := by decide
/-- The memory's canonical form refuses a cell that says what an unlisted address says, a fall, and an address outside. -/
theorem test_wf_memory_refuses_unlisted_byte : Memory.wf [(5, 0x00#8)] = false := by decide
theorem test_wf_memory_refuses_unsorted : Memory.wf [(5, 0x01#8), (4, 0x01#8)] = false := by decide
theorem test_wf_memory_refuses_outside : Memory.wf [(2 ^ 24, 0x01#8)] = false := by decide

/-! ### Decoding, from words written out from the encoding tables (30_encoding.md R51, R54, R57) -/

/-- Byte 0 is 0111 1000. -/
theorem test_decode_sei : decode ⟨.wrapInBank, none⟩ .w8 (bytes [0b01111000#8]) = .ok .sei := by decide
/-- Byte 0 is 1001 1100, then offset[7:0], offset[15:8]. -/
theorem test_decode_stz_abs :
    decode ⟨.wrapInBank, none⟩ .w16 (bytes [0b10011100#8, 0b00000010#8, 0b10000000#8]) =
      .ok (.stzAbs 0b1000000000000010#16) := by decide
/-- Byte 0 is 1010 1001, then imm[7:0]. -/
theorem test_decode_lda_imm_w8 :
    decode ⟨.wrapInBank, none⟩ .w8 (bytes [0b10101001#8, 0b01000010#8, 0b01111000#8]) =
      .ok (.ldaImm (.w8 0b01000010#8)) := by decide
/-- Byte 0 is 1010 1001, then imm[7:0], imm[15:8]. -/
theorem test_decode_lda_imm_w16 :
    decode ⟨.wrapInBank, none⟩ .w16 (bytes [0b10101001#8, 0b01000010#8, 0b01111000#8]) =
      .ok (.ldaImm (.w16 0b0111100001000010#16)) := by decide
/-- The configured opcode (0xAD in section 2.7 of the vectors), then offset[7:0], offset[15:8]. -/
theorem test_decode_lda_abs :
    decode ⟨.wrapInBank, some 0xAD#8⟩ .w8 (bytes [0b10101101#8, 0b00000000#8, 0b00100000#8]) =
      .ok (.ldaAbs 0b0010000000000000#16) := by decide
/-- V39: the neighbours of bound opcodes are unbound. -/
theorem test_decode_neighbours_unbound :
    ∀ op ∈ [0x79#8, 0x9B#8, 0x9D#8, 0xA8#8, 0xAA#8, 0x00#8, 0xAD#8, 0xFF#8],
      decode ⟨.wrapInBank, none⟩ .w8 (bytes [op]) = .error (.unbound op) := by decide

theorem test_encode_stz_abs : encode ⟨.wrapInBank, none⟩ (.stzAbs 0x2000#16) = some [0x9C#8, 0x00#8, 0x20#8] := by decide
theorem test_encode_lda_imm_w16 :
    encode ⟨.wrapInBank, none⟩ (.ldaImm (.w16 0x1234#16)) = some [0xA9#8, 0x34#8, 0x12#8] := by decide

/-- Table words: the first byte is the low byte of the number. -/
theorem test_table_word_sei : decodeTableWord 8 0x78 = some .sei := by decide
theorem test_table_word_stz_abs : decodeTableWord 24 0x20009C = some (.stzAbs 0x2000#16) := by decide
theorem test_table_word_lda_imm : decodeTableWord 8 0xA9 = some (.ldaImm (.w8 0x00#8)) := by decide
theorem test_table_word_unbound : decodeTableWord 8 0xFF = none := by decide

/-- Right after reset, each bound table row runs as the first instruction. -/
theorem test_first_instruction_sei : (regsOf (step (State.reset.withFetchWord 8 0x78))).map (·.pc) = some 0x0001#16 := by
  decide
theorem test_first_instruction_stz_abs :
    (regsOf (step (State.reset.withFetchWord 8 0x9C))).map (·.pc) = some 0x0003#16 := by decide
theorem test_first_instruction_lda_imm :
    (regsOf (step (State.reset.withFetchWord 8 0xA9))).map (·.pc) = some 0x0002#16 := by decide

/-- The notation of R57. -/
theorem test_asm_lda_imm : asm (.ldaImm (.w8 0x42#8)) = "LDA #$42".toList := by decide
theorem test_asm_stz_abs : asm (.stzAbs 0x2F00#16) = "STZ $2F00".toList := by decide

/-! ### Registers, fetch and addresses (95_test_vectors.md sections 2.1 to 2.3) -/

/-- V3. -/
theorem test_set8_keeps_high_byte : set8 0xABCD#16 0x42#8 = 0xAB42#16 := by decide
/-- V1. -/
theorem test_get8_low_byte : get8 0xABCD#16 = 0xCD#8 := by decide
/-- V9. -/
theorem test_fetch_wraps_inside_bank :
    (fetch ramBus { regs := ⟨0x01#8, 0xFFFF#16, 0x00#8, 0x0000#16, 0x00#8⟩, mem := [], trace := [] }).2.regs =
      ⟨0x01#8, 0x0000#16, 0x00#8, 0x0000#16, 0x00#8⟩ := by decide
/-- V14. -/
theorem test_next_addr_wrap : nextAddr .wrapInBank ⟨0xFF#8, 0xFFFF#16⟩ = ⟨0xFF#8, 0x0000#16⟩ := by decide
theorem test_next_addr_carry : nextAddr .carryIntoNextBank ⟨0xFF#8, 0xFFFF#16⟩ = ⟨0x00#8, 0x0000#16⟩ := by decide

/-! ### Instructions -/

/-- V25: P 0xDB becomes 0xDF, one bus read. -/
def seiState : State :=
  machine .wrapInBank none ⟨0x00#8, 0x8000#16, 0x7E#8, 0x1234#16, 0xDB#8⟩ [(0x008000, 0x78#8)]

theorem test_sei_sets_i_keeps_others :
    regsOf (step seiState) = some ⟨0x00#8, 0x8001#16, 0x7E#8, 0x1234#16, 0xDF#8⟩ := by decide
/-- V26: the last offset of a bank. -/
theorem test_sei_wraps_pc :
    regsOf (step (machine .wrapInBank none ⟨0x03#8, 0xFFFF#16, 0x7E#8, 0x1234#16, 0x20#8⟩ [(0x03FFFF, 0x78#8)])) =
      some ⟨0x03#8, 0x0000#16, 0x7E#8, 0x1234#16, 0x24#8⟩ := by decide

/-- V15. -/
def ldaImmState8 : State :=
  machine .wrapInBank none ⟨0x00#8, 0x8000#16, 0x7E#8, 0xABCD#16, 0x00#8⟩ [(0x008000, 0xA9#8), (0x008001, 0x42#8)]

/-- V19: 16 bits, across the end of the bank. -/
def ldaImmState16 : State :=
  machine .carryIntoNextBank none ⟨0x05#8, 0xFFFE#16, 0x7E#8, 0x0000#16, 0x20#8⟩
    [(0x050000, 0xAB#8), (0x05FFFE, 0xA9#8), (0x05FFFF, 0xCD#8)]

theorem test_lda_imm_w8 : regsOf (step ldaImmState8) = some ⟨0x00#8, 0x8002#16, 0x7E#8, 0xAB42#16, 0x00#8⟩ := by decide
theorem test_lda_imm_w16_across_bank_end :
    regsOf (step ldaImmState16) = some ⟨0x05#8, 0x0001#16, 0x7E#8, 0xABCD#16, 0x20#8⟩ ∧
    traceOf (step ldaImmState16) =
      some [.read ⟨0x05#8, 0xFFFE#16⟩ 0xA9#8, .read ⟨0x05#8, 0xFFFF#16⟩ 0xCD#8, .read ⟨0x05#8, 0x0000#16⟩ 0xAB#8] := by
  decide

/-- The memory of section 2.7, with the instruction AD FF FF at 00:8000. -/
def ldaAbsState (cross : AbsBankCross) (p : U8) : State :=
  machine cross (some 0xAD#8) ⟨0x00#8, 0x8000#16, 0x7E#8, 0x5555#16, p⟩
    [(0x008000, 0xAD#8), (0x008001, 0xFF#8), (0x008002, 0xFF#8), (0x7E0000, 0x22#8), (0x7EFFFF, 0x11#8),
     (0x7F0000, 0x33#8)]

/-- V35. -/
theorem test_lda_abs_w16_bank_end :
    regsOf (step (ldaAbsState .wrapInBank 0x20#8)) = some ⟨0x00#8, 0x8003#16, 0x7E#8, 0x2211#16, 0x20#8⟩ ∧
    regsOf (step (ldaAbsState .carryIntoNextBank 0x20#8)) =
      some ⟨0x00#8, 0x8003#16, 0x7E#8, 0x3311#16, 0x20#8⟩ := by decide
/-- V36. -/
theorem test_lda_abs_w8 :
    regsOf (step (ldaAbsState .wrapInBank 0x00#8)) = some ⟨0x00#8, 0x8003#16, 0x7E#8, 0x5511#16, 0x00#8⟩ := by decide

/-- The instruction 9C FF FF at 00:8000, bytes to be overwritten around the end of bank 0x7E (V29, V31). -/
def stzState (cross : AbsBankCross) (p : U8) : State :=
  machine cross none ⟨0x00#8, 0x8000#16, 0x7E#8, 0x1234#16, p⟩
    [(0x008000, 0x9C#8), (0x008001, 0xFF#8), (0x008002, 0xFF#8), (0x7E0000, 0x66#8), (0x7EFFFF, 0x55#8),
     (0x7F0000, 0x77#8)]

/-- V31: 8 bits, one write. -/
theorem test_stz_abs_w8 :
    (traceOf (step (stzState .wrapInBank 0x00#8))).map (·.drop 3) = some [.write ⟨0x7E#8, 0xFFFF#16⟩ 0x00#8] ∧
    (memOf (step (stzState .wrapInBank 0x00#8))).map (·.drop 3) = some [(0x7E0000, 0x66#8), (0x7F0000, 0x77#8)] := by
  decide
/-- V29: 16 bits at the end of the bank, both settings. -/
theorem test_stz_abs_w16_bank_end :
    (traceOf (step (stzState .wrapInBank 0x20#8))).map (·.drop 3) =
      some [.write ⟨0x7E#8, 0xFFFF#16⟩ 0x00#8, .write ⟨0x7E#8, 0x0000#16⟩ 0x00#8] ∧
    (traceOf (step (stzState .carryIntoNextBank 0x20#8))).map (·.drop 3) =
      some [.write ⟨0x7E#8, 0xFFFF#16⟩ 0x00#8, .write ⟨0x7F#8, 0x0000#16⟩ 0x00#8] := by decide

/-! ### Stops (95_test_vectors.md section 2.8) -/

/-- V37: an unbound opcode. -/
def unboundState : State :=
  machine .wrapInBank none ⟨0x00#8, 0x8000#16, 0x7E#8, 0x1234#16, 0x00#8⟩ [(0x008000, 0xFF#8)]

theorem test_unbound_opcode_fails :
    faultOf (step unboundState) = some (.decodeFailure ⟨0xFF#8, 0x00#8, 0x8000#16⟩) := by decide
/-- V40: 0xAD with LDA_ABS_OPCODE = none. -/
theorem test_lda_abs_unbound_by_default :
    faultOf (step { ldaAbsState .wrapInBank 0x00#8 with params := ⟨.wrapInBank, none⟩ }) =
      some (.decodeFailure ⟨0xAD#8, 0x00#8, 0x8000#16⟩) := by decide
/-- 10_state.md R27. -/
theorem test_step_before_reset_refused :
    refusalOf (step (State.powerOn ⟨.wrapInBank, none⟩ [(0x000000, 0x78#8)])) = some .beforeReset := by decide
/-- 30_encoding.md R55. -/
theorem test_ill_formed_configuration_refused :
    refusalOf (step { seiState with params := ⟨.wrapInBank, some 0x78#8⟩ }) = some .illFormedConfiguration := by decide

/-! ### Reset and the driving loop -/

/-- V43. -/
theorem test_reset_reads_vector :
    (State.boot ⟨.wrapInBank, none⟩ 0xBEEF#16 [(0x00FFFD, 0x80#8)]).regs =
      ⟨0x00#8, 0x8000#16, 0x00#8, 0xBEEF#16, 0x04#8⟩ ∧
    (State.boot ⟨.wrapInBank, none⟩ 0xBEEF#16 [(0x00FFFD, 0x80#8)]).trace =
      [.read ⟨0x00#8, 0xFFFC#16⟩ 0x00#8, .read ⟨0x00#8, 0xFFFD#16⟩ 0x80#8] := by decide

/-- P4: the same bytes under two widths, the host writing P after reset. -/
def bootState : State :=
  State.boot ⟨.wrapInBank, none⟩ 0x1100#16
    [(0x00C000, 0xA9#8), (0x00C001, 0x42#8), (0x00C002, 0x78#8), (0x00C003, 0xFF#8), (0x00FFFD, 0xC0#8)]

theorem test_boot_runs_at_w8 :
    regsOf (drive [.step] bootState) = some ⟨0x00#8, 0xC002#16, 0x00#8, 0x1142#16, 0x04#8⟩ := by decide
theorem test_boot_runs_at_w16_after_host_write :
    regsOf (drive [.write (.p 0x20#8), .step] bootState) = some ⟨0x00#8, 0xC003#16, 0x00#8, 0x7842#16, 0x20#8⟩ := by decide

/-! ### Witnesses: states and operands that meet the hypotheses of the statements -/

theorem test_witness_DecodeOfEncodeIsTheInstruction :
    Instr.sei.wellFormed ⟨.wrapInBank, none⟩ .w16 = true ∧
    (Instr.stzAbs 0xFFFF#16).wellFormed ⟨.wrapInBank, none⟩ .w8 = true ∧
    (Instr.ldaImm (.w8 0xFF#8)).wellFormed ⟨.wrapInBank, none⟩ .w8 = true ∧
    (Instr.ldaImm (.w16 0xFFFF#16)).wellFormed ⟨.wrapInBank, none⟩ .w16 = true ∧
    (Instr.ldaAbs 0x0000#16).wellFormed ⟨.carryIntoNextBank, some 0xAD#8⟩ .w8 = true := by decide

theorem test_witness_EncodeOfDecodeIsTheStream :
    (Params.mk .wrapInBank (some 0xAD#8)).wf = true ∧
    decode ⟨.wrapInBank, some 0xAD#8⟩ .w8 (bytes [0xAD#8, 0x00#8, 0x20#8]) = .ok (.ldaAbs 0x2000#16) := by decide

theorem test_witness_UnboundOpcodesNumber253Or252 :
    (Params.mk .wrapInBank none).wf = true ∧ (Params.mk .wrapInBank (some 0xFF#8)).wf = true := by decide

theorem test_witness_LengthIsFixedByOpcodeAndWidth :
    decode ⟨.wrapInBank, none⟩ (widthOf 0xDF#8) (bytes [0x78#8]) = .ok .sei ∧
    decode ⟨.wrapInBank, none⟩ (widthOf 0x20#8) (bytes [0x9C#8]) = .ok (.stzAbs 0x0000#16) ∧
    decode ⟨.wrapInBank, none⟩ (widthOf 0x20#8) (bytes [0xA9#8]) = .ok (.ldaImm (.w16 0x0000#16)) ∧
    decode ⟨.wrapInBank, none⟩ (widthOf 0xDF#8) (bytes [0xA9#8]) = .ok (.ldaImm (.w8 0x00#8)) ∧
    decode ⟨.wrapInBank, some 0x00#8⟩ (widthOf 0x00#8) (bytes [0x00#8]) = .ok (.ldaAbs 0x0000#16) := by decide

theorem test_witness_WidthFlagSelectsWidth : 0xDF#8 &&& 0x20#8 = 0#8 ∧ 0x20#8 &&& 0x20#8 ≠ 0#8 := by decide

theorem test_witness_NextAddressFollowsBankCrossRule :
    (0xFFFE#16).toNat < 0xFFFF ∧ (0x0000#16).toNat < 0xFFFF ∧ (0xFFFF#16).toNat = 0xFFFF := by decide

theorem test_witness_MemoryReadsBackWhatWasWritten :
    (stzState .carryIntoNextBank 0x20#8).mem.wf = true ∧ (ldaAbsState .wrapInBank 0x20#8).mem.wf = true := by decide

theorem test_witness_EveryReadReturnsTheLatestWrite : Memory.wf [(0xFFFFFF, 0x01#8)] = true := by decide

theorem test_witness_EveryInitialContentsHasOneMemory :
    Memory.wf [] = true ∧ ∀ a : Addr, Memory.read [] a.phys = (fun _ : Addr => 0x00#8) a :=
  ⟨rfl, fun _ => rfl⟩

theorem test_steppable_sei : Steppable seiState ∧ streamByte seiState 0#16 = 0x78#8 := ⟨⟨rfl, rfl⟩, by decide⟩

theorem test_witness_StepRunsTheDecodedInstruction :
    Steppable seiState ∧ decode seiState.params (widthOf seiState.regs.p) seiState.stream = .ok .sei :=
  ⟨⟨rfl, rfl⟩, by decide⟩

theorem test_witness_StepAgreesWithTheDispatcher : Steppable seiState ∧ Steppable unboundState :=
  ⟨⟨rfl, rfl⟩, ⟨rfl, rfl⟩⟩

theorem test_unbound_byte_unbound : ¬ BoundOpcode ⟨.wrapInBank, none⟩ 0xFF#8 := by unfold BoundOpcode; decide

theorem test_witness_UnboundOpcodeIsADecodeFailure :
    Steppable unboundState ∧ ¬ BoundOpcode unboundState.params (streamByte unboundState 0#16) :=
  ⟨⟨rfl, rfl⟩, by unfold BoundOpcode; decide⟩

theorem test_witness_DecodeFailureLeavesRegistersUnchanged :
    ¬ BoundOpcode ⟨.wrapInBank, none⟩ (anyFetch ramBus unboundState.regs unboundState.mem 0#16).1 := by
  unfold BoundOpcode; decide

theorem test_witness_DecodeFailureRepeats :
    ∃ info b', dispatcherStep ramBus unboundState.params unboundState.toBlock = (.decodeFailure info, b') ∧
      (anyFetch ramBus b'.regs b'.mem 0#16).1 = info.opcode :=
  ⟨_, _, rfl, by decide⟩

theorem test_witness_StepIsRefusedExactlyInTheseStates :
    (State.powerOn ⟨.wrapInBank, none⟩ []).phase = .beforeReset ∧
    ({ seiState with phase := .executing } : State).phase = .executing ∧
    (Params.mk .wrapInBank (some 0xA9#8)).ldaAbsOpcode = some 0xA9#8 := by decide

theorem test_witness_StepCompletesOnBoundOpcodes :
    Steppable (ldaAbsState .wrapInBank 0x20#8) ∧
    BoundOpcode (ldaAbsState .wrapInBank 0x20#8).params (streamByte (ldaAbsState .wrapInBank 0x20#8) 0#16) :=
  ⟨⟨rfl, rfl⟩, .inr (.inr (.inr (by decide)))⟩

/-- Both clauses of the statements of LDA abs and STZ abs, at the end of the bank. -/
theorem test_witness_LdaAbsoluteLoadsFromTheDataBank :
    (ldaAbsState .wrapInBank 0x00#8).regs.p.getLsbD 5 = false ∧
    (ldaAbsState .wrapInBank 0x20#8).regs.p.getLsbD 5 = true := by decide

theorem test_witness_StzAbsoluteStoresZero :
    (stzState .wrapInBank 0xDF#8).regs.p.getLsbD 5 = false ∧
    (stzState .wrapInBank 0x20#8).regs.p.getLsbD 5 = true := by decide

theorem test_witness_SeiStepAdvancesByOne : Steppable seiState ∧ streamByte seiState 0#16 = 0x78#8 :=
  test_steppable_sei

theorem test_witness_LdaImmediateStepTakesOneOrTwoBytes :
    (Steppable ldaImmState8 ∧ streamByte ldaImmState8 0#16 = 0xA9#8 ∧ ldaImmState8.regs.p.getLsbD 5 = false) ∧
    (Steppable ldaImmState16 ∧ streamByte ldaImmState16 0#16 = 0xA9#8 ∧ ldaImmState16.regs.p.getLsbD 5 = true) :=
  ⟨⟨⟨rfl, rfl⟩, by decide⟩, ⟨⟨rfl, rfl⟩, by decide⟩⟩

theorem test_witness_LdaAbsoluteStepReadsAfterFetching :
    (Steppable (ldaAbsState .wrapInBank 0x00#8) ∧ (ldaAbsState .wrapInBank 0x00#8).params.ldaAbsOpcode =
      some (streamByte (ldaAbsState .wrapInBank 0x00#8) 0#16)) ∧
    (Steppable (ldaAbsState .carryIntoNextBank 0x20#8) ∧ (ldaAbsState .carryIntoNextBank 0x20#8).params.ldaAbsOpcode =
      some (streamByte (ldaAbsState .carryIntoNextBank 0x20#8) 0#16)) :=
  ⟨⟨⟨rfl, rfl⟩, by decide⟩, ⟨⟨rfl, rfl⟩, by decide⟩⟩

theorem test_witness_StzAbsoluteStepWritesAfterFetching :
    (Steppable (stzState .wrapInBank 0x00#8) ∧ streamByte (stzState .wrapInBank 0x00#8) 0#16 = 0x9C#8) ∧
    (Steppable (stzState .carryIntoNextBank 0x20#8) ∧
      streamByte (stzState .carryIntoNextBank 0x20#8) 0#16 = 0x9C#8) :=
  ⟨⟨⟨rfl, rfl⟩, by decide⟩, ⟨⟨rfl, rfl⟩, by decide⟩⟩

theorem test_witness_SeiAndLdaImmediateOnAnyBus :
    (anyFetch ramBus seiState.regs seiState.mem 0#16).1 = 0x78#8 ∧
    (anyFetch ramBus ldaImmState8.regs ldaImmState8.mem 0#16).1 = 0xA9#8 ∧ ldaImmState8.regs.p.getLsbD 5 = false ∧
    (anyFetch ramBus ldaImmState16.regs ldaImmState16.mem 0#16).1 = 0xA9#8 ∧ ldaImmState16.regs.p.getLsbD 5 = true := by
  decide

theorem test_witness_StzAbsoluteOnAnyBus :
    (anyFetch ramBus (stzState .wrapInBank 0x00#8).regs (stzState .wrapInBank 0x00#8).mem 0#16).1 = 0x9C#8 ∧
    (anyFetch ramBus (stzState .wrapInBank 0x20#8).regs (stzState .wrapInBank 0x20#8).mem 0#16).1 = 0x9C#8 := by decide

theorem test_witness_LdaAbsoluteOnAnyBus :
    (ldaAbsState .wrapInBank 0x20#8).params.wf = true ∧
    (ldaAbsState .wrapInBank 0x20#8).params.ldaAbsOpcode =
      some (anyFetch ramBus (ldaAbsState .wrapInBank 0x20#8).regs (ldaAbsState .wrapInBank 0x20#8).mem 0#16).1 := by decide

theorem test_witness_GateRunsExactlyOneContinuation :
    (0x00#8).getLsbD 5 = false ∧ (0x20#8).getLsbD 5 = true := by decide

theorem test_witness_LoadsAndSeiFrame :
    (∃ t, exec .sei seiState = .next t) ∧ (∃ t, exec (.ldaImm (.w8 0x42#8)) ldaImmState8 = .next t) ∧
    (∃ t, exec (.ldaAbs 0xFFFF#16) (ldaAbsState .wrapInBank 0x00#8) = .next t) :=
  ⟨⟨_, rfl⟩, ⟨_, rfl⟩, ⟨_, rfl⟩⟩

theorem test_witness_StoreFrame :
    (stzState .wrapInBank 0x20#8).mem.wf = true ∧
    (∃ t, exec (.stzAbs 0xFFFF#16) (stzState .wrapInBank 0x20#8) = .next t) ∧
    (stzState .wrapInBank 0x20#8).regs.dataAddr 0xFFFF#16 = ⟨0x7E#8, 0xFFFF#16⟩ :=
  ⟨by decide, ⟨_, rfl⟩, rfl⟩

theorem test_step_next_of_regs {s : State} (h : (regsOf (step s)).isSome = true) : ∃ t, step s = .next t := by
  cases hs : step s with
  | next t => exact ⟨t, rfl⟩
  | fault f => simp [hs, regsOf] at h
  | refused r => simp [hs, regsOf] at h

/-- The witness of NoStepChangesBanksOrWidth, CompletedStepAdvancesPcByLength, OnlySeiWritesFlags and
OnlyLoadsWriteTheAccumulator: steps that complete, of each instruction. -/
theorem test_witness_completed_steps :
    (∃ t, step seiState = .next t) ∧ (∃ t, step ldaImmState8 = .next t) ∧
    (∃ t, step (ldaAbsState .wrapInBank 0x20#8) = .next t) ∧ (∃ t, step (stzState .wrapInBank 0x20#8) = .next t) :=
  ⟨test_step_next_of_regs (by decide), test_step_next_of_regs (by decide), test_step_next_of_regs (by decide),
    test_step_next_of_regs (by decide)⟩

theorem test_witness_OnlyStzWritesMemory :
    (∃ t, step ldaImmState16 = .next t) ∧ streamByte ldaImmState16 0#16 ≠ 0x9C#8 :=
  ⟨test_step_next_of_regs (by decide), by decide⟩

/-- The last clause at its boundary: a 16-bit store at offset 0xFFFE. -/
theorem test_witness_BankCrossRuleShowsOnlyAtTheBankEnd :
    (∃ t, step { stzState .wrapInBank 0x20#8 with mem := [(0x008000, 0x9C#8), (0x008001, 0xFE#8), (0x008002, 0xFF#8)] } =
      .next t) ∧
    (streamDataAddr { stzState .wrapInBank 0x20#8 with
      mem := [(0x008000, 0x9C#8), (0x008001, 0xFE#8), (0x008002, 0xFF#8)] }).offset ≠ 0xFFFF#16 ∧
    (∃ t, step (stzState .wrapInBank 0x00#8) = .next t) ∧ (stzState .wrapInBank 0x00#8).regs.p.getLsbD 5 = false :=
  ⟨test_step_next_of_regs (by decide), by decide, test_step_next_of_regs (by decide), by decide⟩

/-- P5: STZ over the SEI that follows it. -/
def selfModifyingState : State :=
  machine .wrapInBank none ⟨0x00#8, 0x8000#16, 0x00#8, 0x0000#16, 0x00#8⟩
    [(0x008000, 0x9C#8), (0x008001, 0x03#8), (0x008002, 0x80#8), (0x008003, 0x78#8)]

theorem test_witness_StoreIsSeenByTheNextFetch :
    selfModifyingState.Inv ∧ selfModifyingState.params.ldaAbsOpcode ≠ some 0x00#8 ∧
    streamByte selfModifyingState 0#16 = 0x9C#8 ∧ selfModifyingState.regs.db = selfModifyingState.regs.pb ∧
    (streamDataAddr selfModifyingState).offset = selfModifyingState.regs.pc + 3#16 :=
  ⟨⟨rfl, rfl, by decide⟩, by decide, by decide, by decide, by decide⟩

theorem test_witness_ResetIsLegal :
    (Params.mk .carryIntoNextBank (some 0xAD#8)).wf = true ∧ Memory.wf [(0x00FFFD, 0x80#8)] = true := by decide

theorem test_witness_StepKeepsStateLegal :
    (stzState .wrapInBank 0x20#8).Inv ∧ ∃ t, step (stzState .wrapInBank 0x20#8) = .next t :=
  ⟨⟨rfl, rfl, by decide⟩, test_step_next_of_regs (by decide)⟩

theorem test_drive_next_of_regs {ms : List Move} {s : State} (h : (regsOf (drive ms s)).isSome = true) :
    ∃ t, drive ms s = .next t := by
  cases hs : drive ms s with
  | next t => exact ⟨t, rfl⟩
  | fault f => simp [hs, regsOf] at h
  | refused r => simp [hs, regsOf] at h

theorem test_witness_EveryRunKeepsStateLegal :
    bootState.Inv ∧ ∃ t, drive [.write (.p 0x20#8), .step, .reset 0xFFFF#16] bootState = .next t :=
  ⟨⟨rfl, rfl, by decide⟩, test_drive_next_of_regs (by decide)⟩

theorem test_witness_OnlyTheHostChangesWidthOrBanks :
    (∀ m ∈ ([.step, .step] : List Move), m = .step) ∧ (∃ t, drive [.step, .step] bootState = .next t) ∧
    bootState.regs.p.getLsbD 2 = true :=
  ⟨by decide, test_drive_next_of_regs (by decide), by decide⟩

/-- P4, run a: two steps complete and the third is the decode failure at 00:C003. -/
theorem test_boot_run_ends_in_decode_failure :
    faultOf (drive [.step, .step, .step] bootState) = some (.decodeFailure ⟨0xFF#8, 0x00#8, 0xC003#16⟩) := by decide

theorem test_witness_DrivenRunEndsInTheFirstDecodeFailure :
    bootState.Inv ∧ ∃ t, drive [.step, .step] bootState = .next t :=
  ⟨⟨rfl, rfl, by decide⟩, test_drive_next_of_regs (by decide)⟩

theorem test_witness_StepsCompleteExactlyWhileOpcodesAreBound :
    bootState.Inv ∧ (0 : Nat) < 1 ∧ Host.Core.run core 0 bootState = .next bootState :=
  ⟨⟨rfl, rfl, by decide⟩, by decide, rfl⟩

theorem test_witness_ResetLoadsEveryRegister :
    (State.powerOn ⟨.wrapInBank, none⟩ [(0x00FFFD, 0x80#8)]).phase ≠ .executing ∧
    (State.powerOn ⟨.wrapInBank, none⟩ [(0x00FFFD, 0x80#8)]).params.wf = true ∧
    seiState.phase ≠ .executing ∧ seiState.params.wf = true := by decide

theorem test_witness_ResetForgetsTheRegisters :
    seiState.mem = ({ seiState with regs := ldaImmState8.regs } : State).mem ∧ seiState.phase ≠ .executing := by decide

theorem test_witness_ResetRefusals :
    ({ seiState with phase := .executing } : State).phase = .executing ∧
    seiState.phase ≠ .executing ∧ (Params.mk .wrapInBank (some 0x9C#8)).wf = false := by decide

theorem test_witness_HostWriteSetsOneRegister : seiState.phase = .ready := rfl

theorem test_witness_HostPortIsRefusedOutsideReady :
    (State.powerOn ⟨.wrapInBank, none⟩ []).phase = .beforeReset ∧
    ({ seiState with phase := .executing } : State).phase = .executing := by decide

end Sys2Proof.Tests
end

section
/-! PROOFS, support. What the flags, the accumulator, the decoder, the instructions and the moves do: one lemma per
operation, which the statements about the state are read off from. -/

namespace Sys2Proof

variable {p : Params} {w : Width} {stream : Nat → U8}

/-- Only the opcode 0x78 decodes to SEI (30_encoding.md R54). -/
theorem decode_eq_sei_iff : decode p w stream = .ok .sei ↔ stream 0 = 0x78#8 := by
  refine ⟨fun hd => ?_, decode_sei⟩
  rcases decode_cases p w stream with
    ⟨h, -⟩ | ⟨-, h⟩ | ⟨-, -, h⟩ | ⟨-, -, h⟩ | ⟨-, -, -, -, h⟩ | ⟨-, -, -, -, h⟩
  · exact h
  all_goals simp [h] at hd

/-- An immediate is decoded at the width of the step (30_encoding.md R53). -/
theorem width_of_decode_ldaImm {value : Sized} (hd : decode p w stream = .ok (.ldaImm value)) : value.width = w := by
  rcases decode_cases p w stream with
    ⟨-, h⟩ | ⟨-, h⟩ | ⟨-, rfl, h⟩ | ⟨-, rfl, h⟩ | ⟨-, -, -, -, h⟩ | ⟨-, -, -, -, h⟩ <;>
    rw [h] at hd <;> cases hd <;> rfl

/-- A configuration is ill formed exactly when it binds "LDA abs" to an opcode of the fixed map (30_encoding.md R55). -/
theorem Params.wf_eq_false_iff :
    p.wf = false ↔ ∃ op, p.ldaAbsOpcode = some op ∧ (op = 0x78#8 ∨ op = 0x9C#8 ∨ op = 0xA9#8) := by
  unfold Params.wf
  cases p.ldaAbsOpcode with
  | none => simp
  | some op =>
    simp only [opcodeSei, opcodeStzAbs, opcodeLdaImm, Option.some.injEq, exists_eq_left', Bool.and_eq_false_iff,
      bne_eq_false_iff_eq, or_assoc]

end Sys2Proof

namespace Sys2Proof.Machine

/-! ### Flags and the accumulator -/

/-- Setting I sets bit 2 and keeps every other bit (42_execute.md R114). -/
theorem setFlagI_getLsbD (p : U8) (k : Nat) : (setFlagI p).getLsbD k = (decide (k = 2) || p.getLsbD k) := by
  have h : 0x04#8 = BitVec.twoPow 8 2 := rfl
  rw [setFlagI, h, BitVec.getLsbD_or, BitVec.getLsbD_twoPow, Bool.or_comm]
  simp [eq_comm]

/-- An 8-bit write of the accumulator keeps its high byte (10_state.md R21). -/
@[simp] theorem highByte_set8 (a : U16) (v : U8) : highByte (set8 a v) = highByte a :=
  highByte_word16 _ _

/-- An 8-bit write of the accumulator reads back at 8 bits (10_state.md R20, R21). -/
@[simp] theorem get8_set8 (a : U16) (v : U8) : get8 (set8 a v) = v :=
  lowByte_word16 _ _

/-! ### The state after the fetches and after a reset -/

@[simp] theorem State.fetched_regs (i : Instr) (s : State) :
    (s.fetched i).regs = s.regs.setPc (s.regs.pc + BitVec.ofNat 16 i.length) := by
  rw [State.fetched_toBlock]

@[simp] theorem State.fetched_mem (i : Instr) (s : State) : (s.fetched i).mem = s.mem := by
  rw [State.fetched_toBlock]

@[simp] theorem State.afterReset_mem (d : U16) (s : State) : (s.afterReset d).mem = s.mem := rfl

/-- A reset leaves a legal state wherever the configuration and the memory are legal. -/
theorem State.afterReset_inv {s : State} (hp : s.params.wf = true) (hm : s.mem.wf = true) (d : U16) :
    (s.afterReset d).Inv :=
  ⟨rfl, hp, hm⟩

/-! ### Each instruction's effect -/

/-- SEI sets I (42_execute.md R114, R115), through the gate at either width. -/
theorem exec_sei (s : State) : exec .sei s = .next { s with regs := s.regs.setP (setFlagI s.regs.p) } := by
  cases hW : s.regs.p.getLsbD 5 with
  | false => simp only [exec, execSei, State.onBlock, gate_w8 hW]; rfl
  | true => simp only [exec, execSei, State.onBlock, gate_w16 hW]; rfl

/-- LDA #imm at 8 bits (42_execute.md R110). -/
theorem exec_ldaImm_w8 (v : U8) (s : State) :
    exec (.ldaImm (.w8 v)) s = .next { s with regs := s.regs.setA (set8 s.regs.a v) } := rfl

/-- LDA #imm at 16 bits (42_execute.md R111). -/
theorem exec_ldaImm_w16 (v : U16) (s : State) :
    exec (.ldaImm (.w16 v)) s = .next { s with regs := s.regs.setA v } := rfl

/-- LDA abs at 8 bits: the byte at (DB, offset) (42_execute.md R113). -/
theorem exec_ldaAbs_w8 {s : State} (hW : s.regs.p.getLsbD 5 = false) (offset : U16) :
    exec (.ldaAbs offset) s =
      .next { s with
              regs := s.regs.setA (set8 s.regs.a (s.mem.read (s.regs.dataAddr offset).phys))
              trace := s.trace ++ [.read (s.regs.dataAddr offset) (s.mem.read (s.regs.dataAddr offset).phys)] } := by
  simp only [exec, execLdaAbs, State.onBlock, gate_w8 hW]
  rfl

/-- LDA abs at 16 bits: the word at (DB, offset), its high byte at the next address (42_execute.md R113). -/
theorem exec_ldaAbs_w16 {s : State} (hW : s.regs.p.getLsbD 5 = true) (offset : U16) :
    exec (.ldaAbs offset) s =
      .next { s with
              toBlock := lda16 (memRead16 ramBus s.params.absBankCross (s.regs.dataAddr offset) s.toBlock).1
                (memRead16 ramBus s.params.absBankCross (s.regs.dataAddr offset) s.toBlock).2 } := by
  simp only [exec, execLdaAbs, State.onBlock, gate_w16 hW]
  rfl

/-- STZ abs at 8 bits (42_execute.md R116, R118). -/
theorem exec_stzAbs_w8 {s : State} (hW : s.regs.p.getLsbD 5 = false) (offset : U16) :
    exec (.stzAbs offset) s =
      .next { s with toBlock := memWrite8 ramBus (s.regs.dataAddr offset) default8 s.toBlock } := by
  simp only [exec, execStzAbs, State.onBlock, gate_w8 hW]
  rfl

/-- STZ abs at 16 bits (42_execute.md R117, R118). -/
theorem exec_stzAbs_w16 {s : State} (hW : s.regs.p.getLsbD 5 = true) (offset : U16) :
    exec (.stzAbs offset) s =
      .next { s with
              toBlock := memWrite16 ramBus s.params.absBankCross (s.regs.dataAddr offset) default16 s.toBlock } := by
  simp only [exec, execStzAbs, State.onBlock, gate_w16 hW]
  rfl

/-- Every instruction completes in every state (60_exceptions.md R131). -/
theorem exec_completes (i : Instr) (s : State) : ∃ t, exec i s = .next t := by
  cases i with
  | sei => exact ⟨_, rfl⟩
  | stzAbs offset => exact ⟨_, rfl⟩
  | ldaImm value => cases value <;> exact ⟨_, rfl⟩
  | ldaAbs offset => exact ⟨_, rfl⟩

/-! ### The frame of an instruction -/

/-- What an instruction leaves unchanged from `s` to `t`, and what it may write (42_execute.md R119). -/
structure ExecFrame (i : Instr) (s t : State) : Prop where
  pb     : t.regs.pb = s.regs.pb
  pc     : t.regs.pc = s.regs.pc
  db     : t.regs.db = s.regs.db
  p      : t.regs.p = if i = .sei then setFlagI s.regs.p else s.regs.p
  /-- Only the loads write the accumulator. -/
  a      : (i = .sei ∨ ∃ offset, i = .stzAbs offset) → t.regs.a = s.regs.a
  /-- With W clear only a 16-bit immediate would replace the accumulator's high byte. -/
  aHigh  : s.regs.p.getLsbD 5 = false → (∀ v, i ≠ .ldaImm (.w16 v)) → highByte t.regs.a = highByte s.regs.a
  /-- Only STZ abs writes memory. -/
  mem    : (∀ offset, i ≠ .stzAbs offset) → t.mem = s.mem
  memWf  : s.mem.wf = true → t.mem.wf = true
  phase  : t.phase = s.phase
  params : t.params = s.params

theorem execFrame_sei {s t : State} (h : exec .sei s = .next t) : ExecFrame .sei s t := by
  rw [exec_sei] at h
  cases h
  constructor <;> simp

theorem execFrame_stzAbs {offset : U16} {s t : State} (h : exec (.stzAbs offset) s = .next t) :
    ExecFrame (.stzAbs offset) s t := by
  cases hW : s.regs.p.getLsbD 5 with
  | false =>
    rw [exec_stzAbs_w8 hW] at h
    cases h
    exact ⟨rfl, rfl, rfl, rfl, fun _ => rfl, fun _ _ => rfl, fun hne => absurd rfl (hne offset),
      fun hm => memWrite8_ram_wf hm _ _, rfl, rfl⟩
  | true =>
    rw [exec_stzAbs_w16 hW] at h
    cases h
    exact ⟨rfl, rfl, rfl, rfl, fun _ => rfl, fun _ _ => rfl, fun hne => absurd rfl (hne offset),
      fun hm => memWrite16_ram_wf hm _ _ _, rfl, rfl⟩

theorem execFrame_ldaImm {value : Sized} {s t : State} (h : exec (.ldaImm value) s = .next t) :
    ExecFrame (.ldaImm value) s t := by
  cases value with
  | w8 v =>
    rw [exec_ldaImm_w8] at h
    cases h
    constructor <;> simp
  | w16 v =>
    rw [exec_ldaImm_w16] at h
    cases h
    constructor <;> simp

theorem execFrame_ldaAbs {offset : U16} {s t : State} (h : exec (.ldaAbs offset) s = .next t) :
    ExecFrame (.ldaAbs offset) s t := by
  cases hW : s.regs.p.getLsbD 5 with
  | false =>
    rw [exec_ldaAbs_w8 hW] at h
    cases h
    constructor <;> simp
  | true =>
    rw [exec_ldaAbs_w16 hW] at h
    cases h
    constructor <;> simp [hW, lda16, memRead16, busRead_ram]

/-- Every instruction keeps its frame. -/
theorem exec_frame {i : Instr} {s t : State} (h : exec i s = .next t) : ExecFrame i s t := by
  cases i with
  | sei => exact execFrame_sei h
  | stzAbs offset => exact execFrame_stzAbs h
  | ldaImm value => exact execFrame_ldaImm h
  | ldaAbs offset => exact execFrame_ldaAbs h

/-- No instruction changes a bit of P other than I. -/
theorem ExecFrame.p_getLsbD {i : Instr} {s t : State} (hf : ExecFrame i s t) {k : Nat} (hk : k ≠ 2) :
    t.regs.p.getLsbD k = s.regs.p.getLsbD k := by
  rw [hf.p]
  split
  · simp [setFlagI_getLsbD, hk]
  · rfl

/-- No instruction clears I. -/
theorem ExecFrame.p_getLsbD_two {i : Instr} {s t : State} (hf : ExecFrame i s t) (hI : s.regs.p.getLsbD 2 = true) :
    t.regs.p.getLsbD 2 = true := by
  rw [hf.p]
  split
  · simp [setFlagI_getLsbD]
  · exact hI

/-! ### The step -/

/-- A step that completes is the decoded instruction's effect on the fetched state, within that instruction's frame, and
Ready again. -/
theorem step_frame {s t : State} (h : step s = .next t) :
    ∃ i u, s.decoded = .ok i ∧ ExecFrame i (s.fetched i) u ∧ t = { u with phase := .ready } := by
  obtain ⟨-, i, u, hi, hu, ht⟩ := step_next h
  exact ⟨i, u, hi, exec_frame hu, ht⟩

/-- A step is refused for its state's reason to refuse one, and for no other: no instruction refuses. -/
theorem step_refused_iff {s : State} {r : Refusal} : step s = .refused r ↔ s.stepRefusal = some r := by
  cases hr : s.stepRefusal with
  | some r' => simp [step, hr]
  | none =>
    cases hd : s.decoded with
    | ok i =>
      obtain ⟨t, ht⟩ := exec_completes i (s.fetched i)
      simp [step_of_decoded hr hd, ht, finishStep]
    | error e => simp [step, hr, hd]

/-- No step leaves a legal state for an illegal one. -/
theorem step_inv {s t : State} (hs : s.Inv) (h : step s = .next t) : t.Inv := by
  obtain ⟨i, u, -, hf, rfl⟩ := step_frame h
  exact ⟨rfl, hf.params ▸ hs.params, hf.memWf (by simpa using hs.mem)⟩

/-! ### The host port, reset and runs -/

/-- Between steps a host write sets its register (10_state.md R24). -/
theorem hostWrite_ready {s : State} (h : s.phase = .ready) (w : HostWrite) :
    hostWrite w s = .next { s with regs := s.regs.hostSet w } := by
  have hr : s.phase.refusal = none := by rw [h]; rfl
  simp only [hostWrite, hr]
  rfl

/-- Between steps a host read gives the register (10_state.md R24). -/
theorem hostRead_ready {s : State} (h : s.phase = .ready) (reg : Reg) : hostRead reg s = .ok (s.regs.get reg) := by
  simp only [hostRead, Phase.refusal, h]

/-- Outside a step a reset is carried out, in a well-formed configuration (70_reset_and_hazards.md R150). -/
theorem resetEntry_of_wf {s : State} (hph : s.phase ≠ .executing) (hp : s.params.wf = true) (d : U16) :
    resetEntry d s = .next (s.afterReset d) := by
  cases h : s.phase with
  | executing => exact absurd h hph
  | beforeReset => simp only [resetEntry, h, hp, if_true]
  | ready => simp only [resetEntry, h, hp, if_true]

/-- No move of the driving loop leaves a legal state for an illegal one. -/
theorem move_inv {m : Move} {s t : State} (hs : s.Inv) (h : move m s = .next t) : t.Inv := by
  cases m with
  | step => exact step_inv hs h
  | reset d =>
    rw [move, resetEntry_of_wf (by simp [hs.ready]) hs.params] at h
    cases h
    exact State.afterReset_inv hs.params hs.mem d
  | write w =>
    rw [move, hostWrite_ready hs.ready] at h
    cases h
    exact ⟨hs.ready, hs.params, hs.mem⟩

/-- A run that completes completed its first move, and the rest of the run from there. -/
theorem drive_cons_next {m : Move} {ms : List Move} {s t : State} (h : drive (m :: ms) s = .next t) :
    ∃ u, move m s = .next u ∧ drive ms u = .next t := by
  cases hm : move m s with
  | next u => exact ⟨u, rfl, drive_cons_of_next hm ms ▸ h⟩
  | fault f => rw [drive_cons_of_fault hm] at h; cases h
  | refused r => rw [drive_cons_of_refused hm] at h; cases h

/-- What every move of a run keeps, the run keeps. -/
theorem drive_preserves {P : State → Prop} {ms : List Move} {s t : State}
    (hP : ∀ m ∈ ms, ∀ u v, P u → move m u = .next v → P v) (hs : P s) (h : drive ms s = .next t) : P t := by
  induction ms generalizing s with
  | nil => cases h; exact hs
  | cons m ms ih =>
    obtain ⟨u, hm, hd⟩ := drive_cons_next h
    exact ih (fun m' hm' => hP m' (List.mem_cons_of_mem m hm')) (hP m List.mem_cons_self s u hs hm) hd

/-- The state `t` has the banks and the width of `s`, and I set if `s` has (10_state.md R18, R19). -/
structure KeepsBanksAndWidth (s t : State) : Prop where
  pb : t.regs.pb = s.regs.pb
  db : t.regs.db = s.regs.db
  w  : t.regs.p.getLsbD 5 = s.regs.p.getLsbD 5
  i  : s.regs.p.getLsbD 2 = true → t.regs.p.getLsbD 2 = true

theorem KeepsBanksAndWidth.trans {s t u : State} (h₁ : KeepsBanksAndWidth s t) (h₂ : KeepsBanksAndWidth t u) :
    KeepsBanksAndWidth s u :=
  ⟨h₂.pb.trans h₁.pb, h₂.db.trans h₁.db, h₂.w.trans h₁.w, fun h => h₂.i (h₁.i h)⟩

/-- No step changes the banks or W, or clears I. -/
theorem step_keepsBanksAndWidth {s t : State} (h : step s = .next t) : KeepsBanksAndWidth s t := by
  obtain ⟨i, u, -, hf, rfl⟩ := step_frame h
  exact ⟨by simpa using hf.pb, by simpa using hf.db, by simpa using hf.p_getLsbD (k := 5) (by decide),
    fun hI => hf.p_getLsbD_two (by simpa using hI)⟩

end Sys2Proof.Machine
end

section
/-! PROOFS. The statements about the state: registers and flags, frames, invariants, reset and the host port. -/

namespace Sys2Proof

open Machine

/-! ### Invariants -/

/-- Settles O48: the frame of the instruction a step runs keeps the configuration and the memory's canonical form. -/
theorem stepKeepsStateLegal : Obligations.StepKeepsStateLegal := fun _ _ => step_inv

/-- Settles O49, by induction on the moves: each move keeps a state legal. -/
theorem everyRunKeepsStateLegal : Obligations.EveryRunKeepsStateLegal := by
  intro ms s t hs h
  exact drive_preserves (fun _ _ _ _ => move_inv) hs h

/-- Settles O50, by induction on the moves, all of them steps. -/
theorem onlyTheHostChangesWidthOrBanks : Obligations.OnlyTheHostChangesWidthOrBanks := by
  intro ms s t hsteps h
  have hkeep : ∀ m ∈ ms, ∀ u v, KeepsBanksAndWidth s u → move m u = .next v → KeepsBanksAndWidth s v := by
    intro m hm u v hu hv
    rw [hsteps m hm] at hv
    exact hu.trans (step_keepsBanksAndWidth hv)
  obtain ⟨hpb, hdb, hw, hi⟩ := drive_preserves hkeep ⟨rfl, rfl, rfl, id⟩ h
  exact ⟨hpb, hdb, hw, hi⟩

/-- Settles O47: the state after reset is a first reset's, from memory and configuration that are legal. -/
theorem resetIsLegal : Obligations.ResetIsLegal :=
  ⟨State.afterReset_inv rfl rfl _, fun _ aReset _ hp hm => State.afterReset_inv hp hm aReset⟩

/-! ### The step -/

/-- Settles O24, by the phase: no instruction refuses, so only the state before the step can. -/
theorem stepIsRefusedExactlyInTheseStates : Obligations.StepIsRefusedExactlyInTheseStates := by
  intro s r
  rw [step_refused_iff, ← Params.wf_eq_false_iff, State.stepRefusal]
  cases hph : s.phase with
  | beforeReset => simp [Phase.refusal, eq_comm (b := r)]
  | executing => simp [Phase.refusal, eq_comm (b := r)]
  | ready => cases hp : s.params.wf <;> simp [Phase.refusal, eq_comm (b := r)]

/-- Settles O40: the banks and W as every step keeps them, the configuration by the instruction's frame. -/
theorem noStepChangesBanksOrWidth : Obligations.NoStepChangesBanksOrWidth := by
  intro s t h
  obtain ⟨hpb, hdb, hw, -⟩ := step_keepsBanksAndWidth h
  obtain ⟨i, u, -, hf, rfl⟩ := step_frame h
  exact ⟨hpb, hdb, hw, hf.params⟩

/-- Settles O41: the fetches move PC on by the length, and no instruction writes PC. -/
theorem completedStepAdvancesPcByLength : Obligations.CompletedStepAdvancesPcByLength := by
  intro s t h
  obtain ⟨i, u, hi, hf, rfl⟩ := step_frame h
  refine ⟨i, hi, ?_⟩
  have hpc : u.regs.pc = s.regs.pc + BitVec.ofNat 16 i.length := by simpa using hf.pc
  simp [hpc]

/-- Settles O42: the frame gives P by whether SEI was decoded, which the opcode says. -/
theorem onlySeiWritesFlags : Obligations.OnlySeiWritesFlags := by
  intro s t h
  obtain ⟨i, u, hi, hf, rfl⟩ := step_frame h
  have hsei : i = .sei ↔ streamByte s 0#16 = 0x78#8 :=
    calc i = .sei ↔ s.decoded = .ok .sei := by simp [hi]
      _ ↔ streamByte s 0#16 = 0x78#8 := decode_eq_sei_iff
  simpa [hsei, setFlagI] using hf.p

/-- Settles O43: SEI and STZ abs do not write A, and with W clear no 16-bit immediate is decoded. -/
theorem onlyLoadsWriteTheAccumulator : Obligations.OnlyLoadsWriteTheAccumulator := by
  intro s t h
  obtain ⟨i, u, hi, hf, rfl⟩ := step_frame h
  refine ⟨fun hop => ?_, fun hW => ?_⟩
  · have hi' : i = .sei ∨ ∃ offset, i = .stzAbs offset := by
      rcases hop with hop | hop
      · exact .inl (Except.ok.inj (hi.symm.trans (decode_sei hop)))
      · exact .inr ⟨_, Except.ok.inj (hi.symm.trans (decode_stzAbs hop))⟩
    simpa using hf.a hi'
  · have hi' : ∀ v, i ≠ .ldaImm (.w16 v) := by
      rintro v rfl
      have hw := width_of_decode_ldaImm hi
      rw [widthOf_w8 hW] at hw
      cases hw
    simpa using hf.aHigh (by simpa using hW) hi'

/-- Settles O38: the frame of every instruction, with what the equations of SEI and LDA #imm say of A and the trace. -/
theorem loadsAndSeiFrame : Obligations.LoadsAndSeiFrame := by
  intro i s t hstz h
  have hf := exec_frame h
  have hsei : i = .sei → t.trace = s.trace := by
    rintro rfl
    rw [exec_sei] at h
    cases h
    rfl
  have himm : ∀ v, i = .ldaImm v → t.trace = s.trace := by
    rintro v rfl
    cases v <;> (cases h; rfl)
  have himm8 : ∀ v, i = .ldaImm (.w8 v) → highByte t.regs.a = highByte s.regs.a := by
    rintro v rfl
    rw [exec_ldaImm_w8] at h
    cases h
    exact highByte_set8 s.regs.a v
  exact ⟨hf.pb, hf.pc, hf.db, hf.phase, hf.params, fun x => by rw [hf.mem hstz], fun hi => by rw [hf.p, if_neg hi],
    fun k => hf.p_getLsbD, fun hi => ⟨hf.a (.inl hi), hsei hi⟩, himm, himm8,
    fun offset hi hW => hf.aHigh hW (by simp [hi])⟩

/-! ### The host port and reset -/

/-- Settles O57, by the register written. -/
theorem hostWriteSetsOneRegister : Obligations.HostWriteSetsOneRegister := by
  intro w s h
  have hread : ∀ reg, hostRead reg { s with regs := s.regs.hostSet w } = .ok ((s.regs.hostSet w).get reg) :=
    hostRead_ready h
  refine ⟨s.regs.hostSet w, hostWrite_ready h w, ?_, ?_, ?_, ?_, ?_, hread .pb, hread .pc, hread .db, hread .a,
    hread .p⟩
  all_goals
    rintro v rfl
    rfl

/-- Settles O58: the phase gives the reason. -/
theorem hostPortIsRefusedOutsideReady : Obligations.HostPortIsRefusedOutsideReady := by
  intro w reg s
  constructor <;> intro h <;> simp [hostWrite, hostRead, h, Phase.refusal]

/-- Settles O55, by the phase. -/
theorem resetRefusals : Obligations.ResetRefusals := by
  intro aReset s
  refine ⟨fun h => by simp [resetEntry, h], fun hph hp => ?_⟩
  cases h : s.phase with
  | executing => exact absurd h hph
  | beforeReset => simp [resetEntry, h, hp]
  | ready => simp [resetEntry, h, hp]

/-! ### Registers and flags -/

/-- Settles O7: what was set is read back, whatever it is, so a default is. -/
theorem widthAbstractionReadsWhatWasSet : Obligations.WidthAbstractionReadsWhatWasSet :=
  ⟨fun a => ⟨lowByte_toNat a, rfl⟩, rfl, rfl, fun a => ⟨get8_set8 a default8, rfl⟩⟩

/-- Settles O8: the new accumulator is the old high byte put before the byte written. -/
theorem eightBitWriteKeepsHighByte : Obligations.EightBitWriteKeepsHighByte := by
  intro a v u
  refine ⟨?_, get8_set8 a v, highByte_set8 a v, rfl⟩
  rw [set8, word16_toNat, highByte_toNat, Nat.mul_comm]

/-- Settles O9: masking with 0x20 leaves bit 5 alone. -/
theorem widthFlagSelectsWidth : Obligations.WidthFlagSelectsWidth := by
  intro p
  have hmask : p &&& 0x20#8 = if p.getLsbD 5 then 0x20#8 else 0#8 := BitVec.and_twoPow p 5
  rw [hmask]
  cases h : p.getLsbD 5 with
  | false => simp [widthOf_w8 h]
  | true => simp [widthOf_w16 h]

/-- Settles O10: 0x04 is bit 2 alone. -/
theorem settingIChangesOnlyBitTwo : Obligations.SettingIChangesOnlyBitTwo := setFlagI_getLsbD

/-- Settles O13: the fetch is one bus read and the update of PC, on any collaborator. -/
theorem fetchReadsAndAdvancesInsideTheBank : Obligations.FetchReadsAndAdvancesInsideTheBank := by
  intro μ bus b
  exact ⟨rfl, rfl, rfl, rfl, BitVec.toNat_add b.regs.pc 1#16⟩

end Sys2Proof
end

section
/-! PROOFS, support. The data access primitives, the extensionality of the reference RAM, the dispatcher's fetches on any
collaborator, and where an instruction's effect depends on the bank-crossing rule. -/

namespace Sys2Proof

variable {p : Params} {w : Width} {stream : Nat → U8}

/-- Only the opcode 0x9C decodes to STZ abs (30_encoding.md R54). -/
theorem stream_zero_of_decode_stzAbs {offset : U16} (hd : decode p w stream = .ok (.stzAbs offset)) :
    stream 0 = 0x9C#8 := by
  rcases decode_cases p w stream with
    ⟨-, h⟩ | ⟨h, -⟩ | ⟨-, -, h⟩ | ⟨-, -, h⟩ | ⟨-, -, -, -, h⟩ | ⟨-, -, -, -, h⟩
  case inr.inl => exact h
  all_goals simp [h] at hd

/-- An instruction that accesses data names the offset in its two operand bytes; its opcode is neither SEI's nor
LDA #imm's (30_encoding.md R52). -/
theorem decode_data_offset {offset : U16}
    (hd : decode p w stream = .ok (.stzAbs offset) ∨ decode p w stream = .ok (.ldaAbs offset)) :
    offset = word16 (stream 2) (stream 1) ∧ stream 0 ≠ 0x78#8 ∧ stream 0 ≠ 0xA9#8 := by
  rcases decode_cases p w stream with
    ⟨-, h⟩ | ⟨hop, h⟩ | ⟨-, -, h⟩ | ⟨-, -, h⟩ | ⟨h₁, -, h₃, -, h⟩ | ⟨-, -, -, -, h⟩
  case inr.inl => exact ⟨by simpa [h, eq_comm] using hd, by simp [hop], by simp [hop]⟩
  case inr.inr.inr.inr.inl => exact ⟨by simpa [h, eq_comm] using hd, h₁, h₃⟩
  all_goals simp [h] at hd

/-- The address of a physical address (20_memory.md R31). -/
def Addr.ofPhys (k : Nat) : Addr := ⟨BitVec.ofNat 8 (k / 65536), BitVec.ofNat 16 k⟩

@[simp] theorem Addr.ofPhys_phys (a : Addr) : Addr.ofPhys a.phys = a := by
  have hb : a.bank.toNat < 256 := a.bank.isLt
  have ho : a.offset.toNat < 65536 := a.offset.isLt
  have hdiv : a.phys / 65536 = a.bank.toNat := by rw [Addr.phys_eq]; omega
  have hmod : a.phys % 2 ^ 16 = a.offset.toNat := by rw [Addr.phys_eq]; omega
  have hoff : BitVec.ofNat 16 a.phys = a.offset := by
    rw [← BitVec.toNat_inj, BitVec.toNat_ofNat, hmod]
  rw [Addr.ofPhys, hdiv, hoff, BitVec.ofNat_toNat, BitVec.setWidth_eq]

/-- Every number inside the address space is the physical address of one. -/
theorem Addr.phys_ofPhys {k : Nat} (h : k < addressSpace) : (Addr.ofPhys k).phys = k := by
  rw [addressSpace] at h
  simp only [Addr.phys_eq, Addr.ofPhys, BitVec.toNat_ofNat]
  omega

end Sys2Proof

namespace Sys2Proof.Machine

variable {μ : Type}

/-! ### The second byte's address -/

/-- Below the end of a bank the bank-crossing rule is not consulted (20_memory.md R35). -/
theorem nextAddr_of_ne {a : Addr} (h : a.offset ≠ 0xFFFF#16) (c : AbsBankCross) :
    nextAddr c a = ⟨a.bank, a.offset + 1#16⟩ := if_pos h

/-- At the end of a bank the next offset is 0 and the bank is as the bank-crossing rule says (20_memory.md R35). -/
theorem nextAddr_wrap {a : Addr} (h : a.offset = 0xFFFF#16) : nextAddr .wrapInBank a = ⟨a.bank, 0x0000#16⟩ :=
  if_neg (not_not.mpr h)

theorem nextAddr_carry {a : Addr} (h : a.offset = 0xFFFF#16) :
    nextAddr .carryIntoNextBank a = ⟨a.bank + 1#8, 0x0000#16⟩ := if_neg (not_not.mpr h)

/-! ### Data access on any collaborator -/

/-- A 16-bit read: two calls, low address first (20_memory.md R34). -/
theorem memRead16_eq (bus : Bus μ) (c : AbsBankCross) (a : Addr) (b : Block μ) :
    memRead16 bus c a b =
      (word16 (bus.read (bus.read b.mem a).2 (nextAddr c a)).1 (bus.read b.mem a).1,
        { b with
          mem := (bus.read (bus.read b.mem a).2 (nextAddr c a)).2
          trace := b.trace ++ [.read a (bus.read b.mem a).1,
            .read (nextAddr c a) (bus.read (bus.read b.mem a).2 (nextAddr c a)).1] }) := by
  simp [memRead16, busRead]

/-- A 16-bit write: two calls, low address first (20_memory.md R36). -/
theorem memWrite16_eq (bus : Bus μ) (c : AbsBankCross) (a : Addr) (v : U16) (b : Block μ) :
    memWrite16 bus c a v b =
      { b with
        mem := bus.write (bus.write b.mem a (lowByte v)) (nextAddr c a) (highByte v)
        trace := b.trace ++ [.write a (lowByte v), .write (nextAddr c a) (highByte v)] } := by
  simp [memWrite16, busWrite]

/-- Below the end of a bank both settings of the bank-crossing rule give the same 16-bit read (20_memory.md R35). -/
theorem memRead16_of_ne {bus : Bus μ} {a : Addr} (h : a.offset ≠ 0xFFFF#16) (c c' : AbsBankCross) (b : Block μ) :
    memRead16 bus c a b = memRead16 bus c' a b := by
  rw [memRead16, memRead16, nextAddr_of_ne h, nextAddr_of_ne h]

/-- Below the end of a bank both settings of the bank-crossing rule give the same 16-bit write (20_memory.md R35). -/
theorem memWrite16_of_ne {bus : Bus μ} {a : Addr} (h : a.offset ≠ 0xFFFF#16) (c c' : AbsBankCross) (v : U16)
    (b : Block μ) : memWrite16 bus c a v b = memWrite16 bus c' a v b := by
  rw [memWrite16, memWrite16, nextAddr_of_ne h, nextAddr_of_ne h]

/-! ### The reference RAM as a function of addresses -/

/-- The first cell of a memory says what its address reads as. -/
@[simp] theorem Memory.read_head (k : Nat) (x : U8) (rest : Memory) : Memory.read ((k, x) :: rest) k = x :=
  if_pos rfl

/-- A canonical memory that reads everywhere as if nothing were listed lists nothing. -/
theorem Memory.eq_nil_of_read {m : Memory} (hm : m.wf = true) (h : ∀ k < addressSpace, m.read k = unlistedByte) :
    m = [] := by
  cases m with
  | nil => rfl
  | cons c rest =>
    obtain ⟨k, x⟩ := c
    obtain ⟨⟨hk, hx⟩, -, -⟩ := Memory.wf_cons.mp hm
    exact absurd (by simpa using h k hk) hx

/-- The first address of a canonical memory is not below that of another with the same bytes: the other would read there as
if nothing were listed. -/
theorem Memory.head_le_of_read_eq {k k' : Nat} {x x' : U8} {rest rest' : Memory}
    (hm : Memory.wf ((k, x) :: rest) = true) (hm' : Memory.wf ((k', x') :: rest') = true)
    (h : ∀ a < addressSpace, Memory.read ((k, x) :: rest) a = Memory.read ((k', x') :: rest') a) : k' ≤ k := by
  obtain ⟨⟨hk, hx⟩, -, -⟩ := Memory.wf_cons.mp hm
  obtain ⟨-, hlt', -⟩ := Memory.wf_cons.mp hm'
  by_contra hkk
  have hread : Memory.read ((k', x') :: rest') k = unlistedByte := by
    refine Memory.read_of_lt fun c hc => ?_
    rcases List.mem_cons.mp hc with rfl | hc
    · exact not_le.mp hkk
    · have := hlt' c hc
      omega
  exact hx (by rw [← Memory.read_head k x rest, h k hk, hread])

/-- Two canonical memories with the same bytes are one memory. -/
theorem Memory.eq_of_read_eq {m m' : Memory} (hm : m.wf = true) (hm' : m'.wf = true)
    (h : ∀ k < addressSpace, m.read k = m'.read k) : m = m' := by
  induction m generalizing m' with
  | nil => exact (Memory.eq_nil_of_read hm' fun k hk => (h k hk).symm).symm
  | cons c rest ih =>
    cases m' with
    | nil => exact Memory.eq_nil_of_read hm h
    | cons c' rest' =>
      obtain ⟨k, x⟩ := c
      obtain ⟨k', x'⟩ := c'
      have hkk : k = k' :=
        le_antisymm (Memory.head_le_of_read_eq hm' hm fun a ha => (h a ha).symm) (Memory.head_le_of_read_eq hm hm' h)
      subst hkk
      obtain ⟨⟨hk, -⟩, hlt, hr⟩ := Memory.wf_cons.mp hm
      obtain ⟨-, hlt', hr'⟩ := Memory.wf_cons.mp hm'
      have hx : x = x' := by simpa using h k hk
      have hrest : rest = rest' := by
        refine ih hr hr' fun a ha => ?_
        by_cases hak : k = a
        · subst hak
          rw [Memory.read_of_lt hlt, Memory.read_of_lt hlt']
        · simpa [Memory.read, hak] using h a ha
      rw [hx, hrest]

/-- Some canonical memory holds given bytes at the lowest `n` addresses: written there one by one. -/
theorem Memory.exists_read_eq (f : Nat → U8) {n : Nat} (hn : n ≤ addressSpace) :
    ∃ m : Memory, m.wf = true ∧ ∀ k < n, m.read k = f k := by
  induction n with
  | zero => exact ⟨[], rfl, fun k hk => absurd hk (Nat.not_lt_zero k)⟩
  | succ n ih =>
    obtain ⟨m, hm, hread⟩ := ih (by omega)
    refine ⟨m.write n (f n), Memory.write_wf (f n) (by omega) hm, fun k hk => ?_⟩
    rw [Memory.read_write hm]
    split
    · subst k
      rfl
    · exact hread k (by omega)

/-- The reference RAM after a sequence of writes, first one first (20_memory.md R40). -/
def Memory.writeAll (m : Memory) (writes : List (Addr × U8)) : Memory :=
  writes.foldl (fun n x => ramBus.write n x.1 x.2) m

@[simp] theorem Memory.writeAll_nil (m : Memory) : m.writeAll [] = m := rfl

@[simp] theorem Memory.writeAll_concat (m : Memory) (writes : List (Addr × U8)) (x : Addr × U8) :
    m.writeAll (writes ++ [x]) = (m.writeAll writes).write x.1.phys x.2 := by
  simp [Memory.writeAll]

/-- Writes keep the canonical form. -/
theorem Memory.writeAll_wf {m : Memory} (hm : m.wf = true) (writes : List (Addr × U8)) :
    (m.writeAll writes).wf = true := by
  induction writes using List.reverseRecOn with
  | nil => exact hm
  | append_singleton writes x ih =>
    rw [Memory.writeAll_concat]
    exact Memory.write_wf x.2 x.1.phys_lt ih

/-- A read after writes is the latest one's value at the address, or what was there before (20_memory.md R40, R42). -/
theorem Memory.writeAll_read {m : Memory} (hm : m.wf = true) (writes : List (Addr × U8)) (a : Addr) :
    (m.writeAll writes).read a.phys =
      ((writes.reverse.find? fun x => decide (x.1 = a)).map (·.2)).getD (m.read a.phys) := by
  induction writes using List.reverseRecOn with
  | nil => rfl
  | append_singleton writes x ih =>
    rw [Memory.writeAll_concat, Memory.read_write (Memory.writeAll_wf hm writes), List.reverse_concat]
    by_cases hx : x.1 = a
    · simp [hx]
    · simpa [hx, Addr.phys_inj] using ih

/-! ### The dispatcher on any collaborator -/

/-- The block of a step that started with registers `r`, `k` bytes of the instruction fetched since. -/
def fetchedBlock (r : RegFile) (k : U16) (m : μ) (trace : List BusCall) : Block μ :=
  { regs := r.setPc (r.pc + k), mem := m, trace := trace }

/-- A fetch after `k` others reads stream byte `k` (20_memory.md R33). -/
theorem fetch_fetchedBlock (bus : Bus μ) (r : RegFile) (k : U16) (m : μ) (trace : List BusCall) :
    fetch bus (fetchedBlock r k m trace) =
      ((anyFetch bus r m k).1,
        fetchedBlock r (k + 1#16) (anyFetch bus r m k).2
          (trace ++ [.read (streamAt r k) (anyFetch bus r m k).1])) := by
  simp only [fetchedBlock, ← BitVec.add_assoc]
  rfl

/-- Two fetches after `k` others: a word, low byte first. -/
theorem fetch16_fetchedBlock (bus : Bus μ) (r : RegFile) (k : U16) (m : μ) (trace : List BusCall) :
    let lo := anyFetch bus r m k
    let hi := anyFetch bus r lo.2 (k + 1#16)
    fetch16 bus (fetchedBlock r k m trace) =
      (word16 hi.1 lo.1,
        fetchedBlock r (k + 1#16 + 1#16) hi.2
          (trace ++ [.read (streamAt r k) lo.1, .read (streamAt r (k + 1#16)) hi.1])) := by
  simp [fetch16, fetch_fetchedBlock]

/-- A step begins before its first fetch. -/
theorem beginTrace_eq_fetchedBlock (b : Block μ) : b.beginTrace = fetchedBlock b.regs 0#16 b.mem [] := by
  simp [fetchedBlock, Block.beginTrace]

/-- A step whose opcode is bound runs the gate with the triple bound to it, after the opcode fetch (40_dispatch.md R71,
R73). -/
theorem dispatcherStep_of_bound {bus : Bus μ} {p : Params} {b : Block μ} {entry : DispatchEntry μ}
    (h : dispatchTable bus p (anyFetch bus b.regs b.mem 0#16).1 = some entry) :
    dispatcherStep bus p b =
      (.ok, gate b.regs.p entry.resolver entry.handler8 entry.handler16
        (fetchedBlock b.regs 1#16 (anyFetch bus b.regs b.mem 0#16).2
          [.read (streamAt b.regs 0#16) (anyFetch bus b.regs b.mem 0#16).1])) := by
  simp only [dispatcherStep, beginTrace_eq_fetchedBlock, fetch_fetchedBlock, h]
  rfl

/-- The absolute-address resolver after the opcode fetch: the two operand bytes fetched, the address named handed over
(41_addressing.md R94). -/
theorem absoluteAddress_fetchedBlock {ρ : Type} (bus : Bus μ) (r : RegFile) (m : μ) (trace : List BusCall) (w : Width)
    (k8 k16 : Addr → Block μ → ρ) :
    let lo := anyFetch bus r m 1#16
    let hi := anyFetch bus r lo.2 2#16
    absoluteAddress bus w k8 k16 (fetchedBlock r 1#16 m trace) =
      deliver (r.dataAddr (word16 hi.1 lo.1)) w k8 k16
        (fetchedBlock r 3#16 hi.2 (trace ++ [.read (streamAt r 1#16) lo.1, .read (streamAt r 2#16) hi.1])) := by
  simp only [absoluteAddress, fetch16_fetchedBlock]
  rfl

/-! ### Where the bank-crossing rule shows -/

/-- The data access of `i` in `s`, if it makes one, stays clear of the end of the bank or is 8 bits wide. -/
def NoBankCross (i : Instr) (s : State) : Prop :=
  ∀ offset, i = .stzAbs offset ∨ i = .ldaAbs offset → s.regs.p.getLsbD 5 = true → offset ≠ 0xFFFF#16

/-! No part of a step before the instruction's own effect reads the bank-crossing rule. -/

@[simp] theorem withCross_stepRefusal (c : AbsBankCross) (s : State) :
    (withCross c s).stepRefusal = s.stepRefusal := rfl

@[simp] theorem withCross_decoded (c : AbsBankCross) (s : State) : (withCross c s).decoded = s.decoded := rfl

@[simp] theorem fetched_withCross (i : Instr) (c : AbsBankCross) (s : State) :
    (withCross c s).fetched i = withCross c (s.fetched i) := rfl

/-- The bank-crossing rule does not show in an instruction whose data access does not cross (20_memory.md R35). -/
theorem exec_withCross {i : Instr} {s t : State} (c : AbsBankCross) (hi : NoBankCross i s)
    (h : exec i s = .next t) : exec i (withCross c s) = .next (withCross c t) := by
  cases i with
  | sei =>
    rw [exec_sei] at h ⊢
    cases h
    rfl
  | ldaImm value => cases value <;> (cases h; rfl)
  | stzAbs offset =>
    cases hW : s.regs.p.getLsbD 5 with
    | false =>
      rw [exec_stzAbs_w8 hW] at h
      cases h
      exact exec_stzAbs_w8 (s := withCross c s) hW offset
    | true =>
      have hoff : (s.regs.dataAddr offset).offset ≠ 0xFFFF#16 := hi offset (.inl rfl) hW
      rw [exec_stzAbs_w16 hW, memWrite16_of_ne hoff _ c] at h
      cases h
      exact exec_stzAbs_w16 (s := withCross c s) hW offset
  | ldaAbs offset =>
    cases hW : s.regs.p.getLsbD 5 with
    | false =>
      rw [exec_ldaAbs_w8 hW] at h
      cases h
      exact exec_ldaAbs_w8 (s := withCross c s) hW offset
    | true =>
      have hoff : (s.regs.dataAddr offset).offset ≠ 0xFFFF#16 := hi offset (.inr rfl) hW
      rw [exec_ldaAbs_w16 hW, memRead16_of_ne hoff _ c] at h
      cases h
      exact exec_ldaAbs_w16 (s := withCross c s) hW offset

/-! ### What a store leaves for the next fetch -/

/-- STZ abs leaves 0x00 at the address it names, at either width (42_execute.md R116 to R118). -/
theorem exec_stzAbs_read {offset : U16} {s t : State} (hm : s.mem.wf = true)
    (h : exec (.stzAbs offset) s = .next t) : t.mem.read (s.regs.dataAddr offset).phys = 0x00#8 := by
  cases hW : s.regs.p.getLsbD 5 with
  | false =>
    rw [exec_stzAbs_w8 hW] at h
    cases h
    exact (memWrite8_ram_read hm _ _ _).trans (if_pos rfl)
  | true =>
    rw [exec_stzAbs_w16 hW] at h
    cases h
    refine (memWrite16_ram_read hm _ _ _ _).trans ?_
    rw [if_neg (nextAddr_ne _ _).symm, if_pos rfl]
    rfl

/-- A step that is allowed on an unbound opcode is that opcode's decode failure (60_exceptions.md R130). -/
theorem step_of_unbound {s : State} (h : s.stepRefusal = none)
    (hop : ¬ BoundOpcode s.params (streamByte s 0#16)) :
    step s = .fault (.decodeFailure ⟨streamByte s 0#16, s.regs.pb, s.regs.pc⟩) := by
  simp only [BoundOpcode, not_or] at hop
  obtain ⟨h₁, h₂, h₃, h₄⟩ := hop
  have hd : s.decoded = .error (.unbound (streamByte s 0#16)) := decode_unbound h₁ h₂ h₃ h₄
  simp only [step, h, hd]
  rfl

end Sys2Proof.Machine
end

section
/-! PROOFS. The statements about memory: the data access primitives, the reference RAM, the accesses of LDA abs and
STZ abs, and who writes memory. -/

namespace Sys2Proof

open Machine

/-! ### The reference RAM -/

/-- Settles O15: a byte read after a write, at the first address and at the next one, which differs from it. -/
theorem memoryReadsBackWhatWasWritten : Obligations.MemoryReadsBackWhatWasWritten := by
  intro c a b v u hm
  have hlo : (memWrite16 ramBus c a u b).mem.read a.phys = lowByte u := by
    rw [memWrite16_ram_read hm, if_neg (nextAddr_ne c a).symm, if_pos rfl]
  have hhi : (memWrite16 ramBus c a u b).mem.read (nextAddr c a).phys = highByte u := by
    rw [memWrite16_ram_read hm, if_pos rfl]
  refine ⟨(memWrite8_ram_read hm a v a).trans (if_pos rfl), ?_, hlo, hhi⟩
  simp only [memRead16_eq, ramBus_read, hlo, hhi, word16_high_low]

/-- Settles O16, by induction on the writes, the latest one last. -/
theorem everyReadReturnsTheLatestWrite : Obligations.EveryReadReturnsTheLatestWrite := by
  intro m writes a hm
  exact ⟨Memory.writeAll_wf hm writes, Memory.writeAll_read hm writes a, rfl⟩

/-- Settles O17: the bytes written one by one make such a memory, and two canonical memories with the same bytes are
one. -/
theorem everyInitialContentsHasOneMemory : Obligations.EveryInitialContentsHasOneMemory := by
  intro memInit
  obtain ⟨m, hm, hread⟩ := Memory.exists_read_eq (fun k => memInit (Addr.ofPhys k)) le_rfl
  have hmem : ∀ a : Addr, m.read a.phys = memInit a := fun a => by rw [hread _ a.phys_lt, Addr.ofPhys_phys]
  refine ⟨m, ⟨hm, hmem⟩, fun m' hm' hmem' => Memory.eq_of_read_eq hm' hm fun k hk => ?_⟩
  rw [← Addr.phys_ofPhys hk, hmem, hmem']

/-! ### The data access primitives -/

/-- Settles O12, by whether the address is at the end of its bank. -/
theorem nextAddressFollowsBankCrossRule : Obligations.NextAddressFollowsBankCrossRule := by
  intro c a
  have hend : a.offset.toNat = 0xFFFF → a.offset = 0xFFFF#16 := fun h => BitVec.eq_of_toNat_eq h
  refine ⟨fun h => ?_, fun h => ?_, fun h hc => ?_, fun h hc => ?_⟩
  · have hne : a.offset ≠ 0xFFFF#16 := fun he => by simp [he] at h
    rw [nextAddr_of_ne hne]
    refine ⟨rfl, ?_⟩
    rw [BitVec.toNat_add, BitVec.toNat_ofNat]
    omega
  · cases c with
    | wrapInBank => rw [nextAddr_wrap (hend h)]
    | carryIntoNextBank => rw [nextAddr_carry (hend h)]
  · rw [hc, nextAddr_wrap (hend h)]
  · rw [hc, nextAddr_carry (hend h), BitVec.toNat_add]
    rfl

/-- Settles O14: an 8-bit access is one bus call, a 16-bit access is two. -/
theorem dataAccessCallsLowAddressFirst : Obligations.DataAccessCallsLowAddressFirst := by
  intro μ bus c a b v u
  exact ⟨⟨rfl, memRead16_eq bus c a b⟩, rfl, memWrite16_eq bus c a u b⟩

/-! ### LDA abs and STZ abs -/

/-- Settles O28, by the width. -/
theorem ldaAbsoluteLoadsFromTheDataBank : Obligations.LdaAbsoluteLoadsFromTheDataBank := by
  intro s offset
  refine ⟨fun hW => exec_ldaAbs_w8 hW offset, fun hW => ?_⟩
  rw [exec_ldaAbs_w16 hW, memRead16_eq]
  rfl

/-- Settles O29, by the width. -/
theorem stzAbsoluteStoresZero : Obligations.StzAbsoluteStoresZero := by
  intro s offset
  refine ⟨fun hW => exec_stzAbs_w8 hW offset, fun hW => ?_⟩
  rw [exec_stzAbs_w16 hW, memWrite16_eq]
  rfl

/-- Settles O35: the gate runs STZ abs's triple after the opcode fetch, the resolver fetches the operand, and the handler of
the width makes the writes. -/
theorem stzAbsoluteOnAnyBus : Obligations.StzAbsoluteOnAnyBus := by
  intro μ bus p b f0 f1 f2 lo hi fetches hop
  have hbound : dispatchTable bus p f0.1 = some (entryStzAbs bus p.absBankCross) := by
    rw [hop, dispatchTable_stzAbs]
  have hstep := dispatcherStep_of_bound hbound
  refine ⟨fun hW => ?_, fun hW => ?_⟩
  · simp only [hstep, gate_w8 hW, entryStzAbs, absoluteAddress_fetchedBlock]
    rfl
  · simp only [hstep, gate_w16 hW, entryStzAbs, absoluteAddress_fetchedBlock, deliver, stz16, memWrite16_eq]
    rfl

/-! ### The step -/

/-- Settles O44: the frame of every instruction but STZ abs keeps memory, and only the opcode 0x9C decodes to that. -/
theorem onlyStzWritesMemory : Obligations.OnlyStzWritesMemory := by
  intro s t h hop x
  obtain ⟨i, u, hi, hf, rfl⟩ := step_frame h
  have hstz : ∀ offset, i ≠ .stzAbs offset := by
    rintro offset rfl
    exact hop (stream_zero_of_decode_stzAbs hi)
  have hmem : u.mem = s.mem := by simpa using hf.mem hstz
  rw [hmem]

/-- Settles O45: the setting is not read before the instruction's own effect, and shows there only in an access that
crosses. -/
theorem bankCrossRuleShowsOnlyAtTheBankEnd : Obligations.BankCrossRuleShowsOnlyAtTheBankEnd := by
  intro s t c h hcase
  obtain ⟨hr, i, u, hi, hu, rfl⟩ := step_next h
  have hcross : NoBankCross i (s.fetched i) := by
    intro offset hdata hW
    have hd : s.decoded = .ok (.stzAbs offset) ∨ s.decoded = .ok (.ldaAbs offset) := by
      rcases hdata with rfl | rfl
      · exact .inl hi
      · exact .inr hi
    obtain ⟨hoff, hsei, hlda⟩ := decode_data_offset hd
    rw [State.fetched_regs] at hW
    rcases hcase with hW' | hop | hop | hne
    · exact absurd (hW'.symm.trans hW) Bool.false_ne_true
    · exact absurd hop hsei
    · exact absurd hop hlda
    · exact hoff ▸ hne
  rw [step_of_decoded ((withCross_stepRefusal c s).trans hr) ((withCross_decoded c s).trans hi), fetched_withCross,
    exec_withCross c hcross hu]
  rfl

/-- Settles O46: PC moved on by three to the byte that the store made 0x00, which is bound to nothing. -/
theorem storeIsSeenByTheNextFetch : Obligations.StoreIsSeenByTheNextFetch := by
  intro s hs hunbound hop hdb hoff
  have hd : s.decoded = .ok (.stzAbs (streamDataAddr s).offset) := decode_stzAbs hop
  obtain ⟨u, hu⟩ := exec_completes (.stzAbs (streamDataAddr s).offset) (s.fetched (.stzAbs (streamDataAddr s).offset))
  have hstep : step s = .next { u with phase := .ready } := by
    rw [step_of_decoded (State.stepRefusal_none.mpr ⟨hs.ready, hs.params⟩) hd, hu]
    rfl
  have hf := exec_frame hu
  have hpb : u.regs.pb = s.regs.pb := by simpa using hf.pb
  have hpc : u.regs.pc = s.regs.pc + 3#16 := by rw [hf.pc, State.fetched_regs]; rfl
  have htarget : streamAt u.regs 0#16 = ⟨s.regs.db, (streamDataAddr s).offset⟩ := by
    rw [streamAt, hpb, hpc, hdb, hoff, BitVec.add_zero]
  have hzero : streamByte { u with phase := .ready } 0#16 = 0x00#8 := by
    have hread := exec_stzAbs_read (by simpa using hs.mem) hu
    rw [streamByte, htarget]
    simpa [RegFile.dataAddr] using hread
  have hinv := step_inv hs hstep
  refine ⟨_, hstep, ?_⟩
  rw [step_of_unbound (State.stepRefusal_none.mpr ⟨hinv.ready, hinv.params⟩), hzero, hpb, hpc]
  rw [hzero]
  rintro (h | h | h | h)
  · cases h
  · cases h
  · cases h
  · exact hunbound (hf.params ▸ h)

end Sys2Proof
end

section
/-! PROOFS, support. The encoder's equations, decoder and encoder as inverses of each other, the decoder's errors, the
count of unbound opcodes, and when a step faults. -/

namespace Sys2Proof

variable {p : Params} {w : Width} {stream : Nat → U8} {i : Instr}

/-! ### The encoder -/

/-- The encoding of an instruction has its length, by the constructor's law (30_encoding.md R51). -/
theorem length_of_encode {bytes : List U8} (h : encode p i = some bytes) : bytes.length = i.length := by
  cases i with
  | sei => exact Laws.EncodedLength.sei p bytes h
  | stzAbs offset => exact Laws.EncodedLength.stzAbs offset p bytes h
  | ldaImm value => exact Laws.EncodedLength.ldaImm value p bytes h
  | ldaAbs offset => exact Laws.EncodedLength.ldaAbs offset p bytes h

/-- "LDA abs" is encoded with the opcode bound to it (30_encoding.md R55). -/
theorem encode_ldaAbs {op : U8} (h : p.ldaAbsOpcode = some op) (offset : U16) :
    encode p (.ldaAbs offset) = some [op, lowByte offset, highByte offset] := by
  rw [encode, h]
  rfl

/-! ### Well-formed instructions -/

/-- A well-formed instruction has a well-formed configuration. -/
theorem Instr.wellFormed_params (h : i.wellFormed p w = true) : p.wf = true :=
  (Bool.and_eq_true_iff.mp h).1

/-- A well-formed immediate has the width of the step (30_encoding.md R53). -/
theorem Instr.wellFormed_ldaImm {value : Sized} (h : (Instr.ldaImm value).wellFormed p w = true) : value.width = w :=
  beq_iff_eq.mp (Bool.and_eq_true_iff.mp h).2

/-- A well-formed "LDA abs" is bound to an opcode (30_encoding.md R55). -/
theorem Instr.wellFormed_ldaAbs {offset : U16} (h : (Instr.ldaAbs offset).wellFormed p w = true) :
    ∃ op, p.ldaAbsOpcode = some op :=
  Option.isSome_iff_exists.mp (Bool.and_eq_true_iff.mp h).2

/-- Every well-formed instruction has an encoding (30_encoding.md R54, R55). -/
theorem encode_of_wellFormed (h : i.wellFormed p w = true) : ∃ bytes, encode p i = some bytes := by
  cases i with
  | sei => exact ⟨_, rfl⟩
  | stzAbs offset => exact ⟨_, rfl⟩
  | ldaImm value => cases value <;> exact ⟨_, rfl⟩
  | ldaAbs offset =>
    obtain ⟨op, hop⟩ := Instr.wellFormed_ldaAbs h
    exact ⟨_, encode_ldaAbs hop offset⟩

/-! ### From the bytes to the instruction -/

/-- The stream begins with these bytes. -/
def BeginsWith (stream : Nat → U8) (bytes : List U8) : Prop :=
  ∀ (k : Nat) (h : k < bytes.length), stream k = bytes[k]

/-- A stream that begins with an opcode and a word, low byte first, has the word as its two operand bytes
(30_encoding.md R52). -/
theorem BeginsWith.opcode_word {op : U8} {v : U16} (h : BeginsWith stream [op, lowByte v, highByte v]) :
    stream 0 = op ∧ word16 (stream 2) (stream 1) = v := by
  have hlo : stream 1 = lowByte v := h 1 (by simp)
  have hhi : stream 2 = highByte v := h 2 (by simp)
  exact ⟨h 0 (by simp), by rw [hlo, hhi, word16_high_low]⟩

/-- A stream that begins with the encoding of a well-formed instruction decodes to it. -/
theorem decode_of_encode {bytes : List U8} (hwf : i.wellFormed p w = true) (he : encode p i = some bytes)
    (hs : BeginsWith stream bytes) : decode p w stream = .ok i := by
  cases i with
  | sei =>
    cases he
    exact decode_sei (hs 0 (by simp))
  | stzAbs offset =>
    cases he
    obtain ⟨hop, hword⟩ := hs.opcode_word
    rw [decode_stzAbs hop, hword]
  | ldaImm value =>
    obtain rfl := Instr.wellFormed_ldaImm hwf
    cases value with
    | w8 v =>
      cases he
      have hv : stream 1 = v := hs 1 (by simp)
      exact hv ▸ decode_ldaImm8 (hs 0 (by simp))
    | w16 v =>
      cases he
      obtain ⟨hop, hword⟩ := hs.opcode_word
      exact hword ▸ decode_ldaImm16 hop
  | ldaAbs offset =>
    obtain ⟨op, hbound⟩ := Instr.wellFormed_ldaAbs hwf
    obtain ⟨h₁, h₂, h₃⟩ := Params.wf_some (Instr.wellFormed_params hwf) hbound
    obtain rfl := Option.some.inj ((encode_ldaAbs hbound offset).symm.trans he)
    obtain ⟨rfl, hword⟩ := hs.opcode_word
    rw [decode_ldaAbs h₁ h₂ h₃ hbound, hword]

/-! ### From the instruction to the bytes -/

/-- What the decoder accepts in a well-formed configuration is well formed (30_encoding.md R53, R55). -/
theorem wellFormed_of_decode (hp : p.wf = true) (hd : decode p w stream = .ok i) : i.wellFormed p w = true := by
  refine Bool.and_eq_true_iff.mpr ⟨hp, ?_⟩
  rcases decode_cases p w stream with
    ⟨-, h⟩ | ⟨-, h⟩ | ⟨-, rfl, h⟩ | ⟨-, rfl, h⟩ | ⟨-, -, -, hbound, h⟩ | ⟨-, -, -, -, h⟩ <;>
    rw [h] at hd <;> cases hd
  · rfl
  · rfl
  · rfl
  · rfl
  · exact Option.isSome_of_eq_some hbound

/-- The encoding of what the decoder accepts is the bytes it was read from: the opcode is the one the decoder found, and
a word assembled from two bytes comes apart into them (30_encoding.md R51, R52). -/
theorem encode_of_decode (hd : decode p w stream = .ok i) :
    encode p i = some ((List.range i.length).map stream) := by
  have hword : ∀ op, stream 0 = op →
      some [op, lowByte (word16 (stream 2) (stream 1)), highByte (word16 (stream 2) (stream 1))] =
        some ((List.range 3).map stream) := by
    rintro op rfl
    rw [lowByte_word16, highByte_word16]
    rfl
  rcases decode_cases p w stream with
    ⟨hop, h⟩ | ⟨hop, h⟩ | ⟨hop, -, h⟩ | ⟨hop, -, h⟩ | ⟨-, -, -, hop, h⟩ | ⟨-, -, -, -, h⟩ <;>
    rw [h] at hd <;> cases hd
  · exact congrArg (fun op => some [op]) hop.symm
  · exact hword _ hop
  · exact congrArg (fun op => some [op, stream 1]) hop.symm
  · exact hword _ hop
  · exact (encode_ldaAbs hop _).trans (hword _ rfl)

/-! ### The decoder's errors -/

/-- The decoder rejects exactly the streams whose opcode is bound to nothing, and names the opcode
(30_encoding.md R56). -/
theorem decode_eq_error_iff {e : DecodeError} :
    decode p w stream = .error e ↔ e = .unbound (stream 0) ∧ ¬ BoundOpcode p (stream 0) := by
  rcases decode_cases p w stream with
    ⟨hop, h⟩ | ⟨hop, h⟩ | ⟨hop, -, h⟩ | ⟨hop, -, h⟩ | ⟨-, -, -, hop, h⟩ | ⟨h₁, h₂, h₃, h₄, h⟩
  case inr.inr.inr.inr.inr => simp [h, BoundOpcode, h₁, h₂, h₃, h₄, eq_comm]
  all_goals simp [h, BoundOpcode, hop]

/-! ### The width and the decoder -/

/-- The opcode 0xA9 is LDA #imm at every width, with an immediate of that width (30_encoding.md R53). -/
theorem decode_ldaImm (h : stream 0 = 0xA9#8) (w : Width) :
    ∃ v : Sized, v.width = w ∧ decode p w stream = .ok (.ldaImm v) := by
  cases w with
  | w8 => exact ⟨_, rfl, decode_ldaImm8 h⟩
  | w16 => exact ⟨_, rfl, decode_ldaImm16 h⟩

/-- Every other opcode decodes the same at every width (30_encoding.md R53). -/
theorem decode_eq_of_ne_ldaImm (h : stream 0 ≠ 0xA9#8) (w w' : Width) : decode p w stream = decode p w' stream := by
  rcases decode_cases p w stream with
    ⟨hop, hd⟩ | ⟨hop, hd⟩ | ⟨hop, -⟩ | ⟨hop, -⟩ | ⟨h₁, h₂, h₃, hop, hd⟩ | ⟨h₁, h₂, h₃, hop, hd⟩
  · rw [hd, decode_sei hop]
  · rw [hd, decode_stzAbs hop]
  · exact absurd hop h
  · exact absurd hop h
  · rw [hd, decode_ldaAbs h₁ h₂ h₃ hop]
  · rw [hd, decode_unbound h₁ h₂ h₃ hop]

/-- The length of LDA #imm is the opcode byte and the immediate's (30_encoding.md R53). -/
theorem Instr.length_ldaImm (v : Sized) (flags : U8) (h : v.width = Machine.widthOf flags) :
    (Instr.ldaImm v).length = if flags.getLsbD 5 then 3 else 2 := by
  cases hW : flags.getLsbD 5 with
  | false =>
    rw [Machine.widthOf_w8 hW] at h
    cases v with
    | w8 v => rfl
    | w16 v => cases h
  | true =>
    rw [Machine.widthOf_w16 hW] at h
    cases v with
    | w8 v => cases h
    | w16 v => rfl

/-! ### How many opcodes are unbound -/

/-- The opcode bytes of the fixed map, as numbers (30_encoding.md R54). -/
def fixedOpcodes : Finset Nat := {0x78, 0x9C, 0xA9}

/-- The bound opcode bytes, as numbers: the fixed map's, and the one bound to "LDA abs", if any
(30_encoding.md R54, R55). -/
def boundOpcodes (p : Params) : Finset Nat :=
  p.ldaAbsOpcode.elim fixedOpcodes fun op => insert op.toNat fixedOpcodes

/-- A byte written from its number is a given byte exactly when the number is that byte's. -/
theorem ofNat_eq_iff {n : Nat} (hn : n < 256) (op : U8) : BitVec.ofNat 8 n = op ↔ n = op.toNat := by
  rw [← BitVec.toNat_inj, BitVec.toNat_ofNat, Nat.mod_eq_of_lt hn]

/-- The bound opcodes as numbers are the bytes that the map binds. -/
theorem mem_boundOpcodes_iff {n : Nat} (hn : n < 256) : n ∈ boundOpcodes p ↔ BoundOpcode p (BitVec.ofNat 8 n) := by
  rw [BoundOpcode, ofNat_eq_iff hn, ofNat_eq_iff hn, ofNat_eq_iff hn]
  cases h : p.ldaAbsOpcode with
  | none => simp [boundOpcodes, fixedOpcodes, h]
  | some op =>
    simp only [boundOpcodes, fixedOpcodes, h, Option.elim_some, Finset.mem_insert, Finset.mem_singleton,
      Option.some.injEq, eq_comm (a := op), ofNat_eq_iff hn, BitVec.toNat_ofNat, Nat.reducePow, Nat.reduceMod]
    tauto

theorem boundOpcodes_subset_range (p : Params) : boundOpcodes p ⊆ Finset.range 256 := by
  have hfixed : fixedOpcodes ⊆ Finset.range 256 := by decide
  cases h : p.ldaAbsOpcode with
  | none => simpa [boundOpcodes, h] using hfixed
  | some op => simpa [boundOpcodes, h, Finset.insert_subset_iff] using And.intro op.isLt hfixed

/-- A well-formed configuration binds three opcodes, and a fourth one if it binds "LDA abs" (30_encoding.md R54, R55). -/
theorem card_boundOpcodes (hp : p.wf = true) : (boundOpcodes p).card = if p.ldaAbsOpcode = none then 3 else 4 := by
  cases h : p.ldaAbsOpcode with
  | none =>
    rw [boundOpcodes, h]
    rfl
  | some op =>
    obtain ⟨h₁, h₂, h₃⟩ := Params.wf_some hp h
    have hnew : op.toNat ∉ fixedOpcodes := by
      rw [← BitVec.toNat_inj.ne] at h₁ h₂ h₃
      simpa [fixedOpcodes] using ⟨h₁, h₂, h₃⟩
    rw [boundOpcodes, h]
    exact Finset.card_insert_of_notMem hnew

/-- The opcodes the decoder rejects are all but the bound ones (30_encoding.md R56). -/
theorem length_filter_unbound (p : Params) (w : Width) :
    ((List.range 256).filter fun n =>
        decide (decode p w (fun _ => BitVec.ofNat 8 n) = .error (.unbound (BitVec.ofNat 8 n)))).length =
      256 - (boundOpcodes p).card := by
  have hunbound : ∀ n ∈ List.range 256,
      decide (decode p w (fun _ => BitVec.ofNat 8 n) = .error (.unbound (BitVec.ofNat 8 n))) =
        decide (n ∉ boundOpcodes p) := by
    intro n hn
    rw [decide_eq_decide, mem_boundOpcodes_iff (List.mem_range.mp hn), decode_eq_error_iff]
    exact and_iff_right rfl
  calc _ = ((List.range 256).filter fun n => decide (n ∉ boundOpcodes p)).length := by
        rw [List.filter_congr hunbound]
    _ = (Finset.range 256 \ boundOpcodes p).card := by rw [Finset.sdiff_eq_filter]; rfl
    _ = 256 - (boundOpcodes p).card := by
        rw [Finset.card_sdiff_of_subset (boundOpcodes_subset_range p), Finset.card_range]

end Sys2Proof

namespace Sys2Proof.Machine

/-- A step that faults was allowed and found its opcode unbound: no instruction faults (60_exceptions.md R131). -/
theorem step_fault {s : State} {f : Fault} (h : step s = .fault f) :
    s.stepRefusal = none ∧ ¬ BoundOpcode s.params (streamByte s 0#16) := by
  cases hr : s.stepRefusal with
  | some r => simp [step, hr] at h
  | none =>
    cases hd : s.decoded with
    | ok i =>
      obtain ⟨t, ht⟩ := exec_completes i (s.fetched i)
      simp [step_of_decoded hr hd, ht, finishStep] at h
    | error e => exact ⟨rfl, (decode_eq_error_iff.mp hd).2⟩

end Sys2Proof.Machine
end

section
/-! PROOFS. The statements about the encoding, and the decode failure it leads to. -/

namespace Sys2Proof

open Machine

/-! ### Encoding -/

/-- Settles O1: a well-formed instruction has an encoding, of its length, and the decoder reads it back, by the
constructor. -/
theorem decodeOfEncodeIsTheInstruction : Obligations.DecodeOfEncodeIsTheInstruction := by
  intro p w i hwf
  obtain ⟨bytes, he⟩ := encode_of_wellFormed hwf
  exact ⟨bytes, he, length_of_encode he, fun _ hs => decode_of_encode hwf he hs⟩

/-- Settles O2: both parts by what the decoder can answer. -/
theorem encodeOfDecodeIsTheStream : Obligations.EncodeOfDecodeIsTheStream :=
  fun _ _ _ _ hp hd => ⟨wellFormed_of_decode hp hd, encode_of_decode hd⟩

/-- Settles O3: the decoder's one error names the opcode it read. -/
theorem decodeRejectsExactlyUnboundOpcodes : Obligations.DecodeRejectsExactlyUnboundOpcodes := by
  intro p w stream op
  rw [decode_eq_error_iff, DecodeError.unbound.injEq]
  exact and_congr_right fun hop => by rw [hop]

/-- Settles O4: the unbound opcodes are the 256 without the three or four bound ones. -/
theorem unboundOpcodesNumber253Or252 : Obligations.UnboundOpcodesNumber253Or252 := by
  intro p w hp
  rw [length_filter_unbound, card_boundOpcodes hp]
  split <;> rfl

/-- Settles O5: each opcode decodes to its instruction, which gives the length; only LDA #imm's decoding reads the
width. -/
theorem lengthIsFixedByOpcodeAndWidth : Obligations.LengthIsFixedByOpcodeAndWidth := by
  intro p flags stream i hd
  have hlen : ∀ {j}, decode p (widthOf flags) stream = .ok j → i.length = j.length :=
    fun hj => congrArg Instr.length (Except.ok.inj (hd.symm.trans hj))
  refine ⟨fun h => hlen (decode_sei h), fun h => hlen (decode_stzAbs h), fun h => ?_, fun h₁ h₂ h₃ => ?_,
    decode_ldaImm, fun h w => (decode_eq_of_ne_ldaImm h _ _).trans hd⟩
  · obtain ⟨v, hv, hj⟩ := decode_ldaImm h (widthOf flags)
    rw [hlen hj, Instr.length_ldaImm v flags hv]
  · by_cases h : p.ldaAbsOpcode = some (stream 0)
    · exact hlen (decode_ldaAbs h₁ h₂ h₃ h)
    · rw [decode_unbound h₁ h₂ h₃ h] at hd
      cases hd

/-- Settles O6: each word decodes by its first byte. -/
theorem exampleWordsDecode : Obligations.ExampleWordsDecode :=
  ⟨decode_sei rfl, decode_stzAbs rfl, decode_ldaImm8 rfl, decode_ldaImm16 rfl,
    decode_ldaAbs (by decide) (by decide) (by decide) rfl,
    decode_unbound (by decide) (by decide) (by decide) (by decide),
    decode_unbound (by decide) (by decide) (by decide) (by decide)⟩

/-! ### The decode failure -/

/-- Settles O20: the step's answer on an unbound opcode, whose trace is that of its report. -/
theorem unboundOpcodeIsADecodeFailure : Obligations.UnboundOpcodeIsADecodeFailure := by
  intro s hs hop
  refine ⟨step_of_unbound (State.stepRefusal_none.mpr hs) hop, ?_⟩
  simp [Fault.busTrace, fetchCall, streamAt]

/-- Settles O23: a step that faults was allowed on an unbound opcode, and there the decode failure is its answer. -/
theorem stepFaultsExactlyOnUnboundOpcodes : Obligations.StepFaultsExactlyOnUnboundOpcodes := by
  intro s f
  constructor
  · intro h
    obtain ⟨hr, hop⟩ := step_fault h
    exact ⟨State.stepRefusal_none.mp hr, hop, Host.Outcome.fault.inj (h.symm.trans (step_of_unbound hr hop))⟩
  · rintro ⟨hs, hop, rfl⟩
    exact step_of_unbound (State.stepRefusal_none.mpr hs) hop

end Sys2Proof
end

section
/-! PROOFS, support. The dispatcher's step by what its opcode is bound to, on any collaborator and on the reference RAM,
where it is the decoded instruction's; when a step completes; how a run ends. -/

namespace Sys2Proof.Machine

variable {μ : Type}

/-! ### The state after the fetches -/

/-- The block an instruction's own effect starts from: all its bytes fetched, one read of each. -/
theorem State.fetched_eq_fetchedBlock (i : Instr) (s : State) :
    (s.fetched i).toBlock =
      fetchedBlock s.regs (BitVec.ofNat 16 i.length) s.mem
        ((List.range i.length).map fun k => fetchCall s (BitVec.ofNat 16 k)) :=
  State.fetched_toBlock i s

/-! ### The dispatcher's step -/

/-- The dispatch table has no triple for an unbound opcode (40_dispatch.md R72). -/
theorem dispatchTable_eq_none (bus : Bus μ) {p : Params} {op : U8} (h : ¬ BoundOpcode p op) :
    dispatchTable bus p op = none := by
  simp only [BoundOpcode, not_or] at h
  obtain ⟨h₁, h₂, h₃, h₄⟩ := h
  exact dispatchTable_unbound bus h₁ h₂ h₃ h₄

/-- A step whose opcode is unbound reports it after the one read, the registers as they were (40_dispatch.md R79). -/
theorem dispatcherStep_of_unbound {bus : Bus μ} {p : Params} {b : Block μ}
    (h : ¬ BoundOpcode p (anyFetch bus b.regs b.mem 0#16).1) :
    dispatcherStep bus p b =
      (.decodeFailure ⟨(anyFetch bus b.regs b.mem 0#16).1, b.regs.pb, b.regs.pc⟩,
        { regs := b.regs, mem := (anyFetch bus b.regs b.mem 0#16).2
          trace := [.read (streamAt b.regs 0#16) (anyFetch bus b.regs b.mem 0#16).1] }) := by
  simp only [dispatcherStep, beginTrace_eq_fetchedBlock, fetch_fetchedBlock, dispatchTable_eq_none bus h]
  rfl

/-- From `s` the dispatcher's step on the reference RAM completes with the block that the effect of `i` leaves. -/
def DispatcherRuns (i : Instr) (s : State) : Prop :=
  ∃ b, dispatcherStep ramBus s.params s.toBlock = (.ok, b) ∧
    exec i (s.fetched i) = .next { s.fetched i with toBlock := b }

/-- SEI: the Implied resolver fetches nothing (41_addressing.md R92). -/
theorem dispatcherRuns_sei {s : State} (hop : streamByte s 0#16 = 0x78#8) : DispatcherRuns .sei s := by
  have hentry : dispatchTable ramBus s.params (streamByte s 0#16) = some entrySei := by
    rw [hop, dispatchTable_sei]
  refine ⟨_, dispatcherStep_of_bound hentry, ?_⟩
  simp only [exec, execSei, State.onBlock, State.fetched_eq_fetchedBlock]
  rfl

/-- STZ abs: the absolute-address resolver fetches the two operand bytes (41_addressing.md R94). -/
theorem dispatcherRuns_stzAbs {s : State} (hop : streamByte s 0#16 = 0x9C#8) :
    DispatcherRuns (.stzAbs (word16 (streamByte s 2#16) (streamByte s 1#16))) s := by
  have hentry : dispatchTable ramBus s.params (streamByte s 0#16) = some (entryStzAbs ramBus s.params.absBankCross) := by
    rw [hop, dispatchTable_stzAbs]
  refine ⟨_, dispatcherStep_of_bound hentry, ?_⟩
  simp only [exec, execStzAbs, State.onBlock, State.fetched_eq_fetchedBlock, entryStzAbs, gate,
    absoluteAddress_fetchedBlock]
  rfl

/-- LDA abs: the Absolute resolver fetches the two operand bytes, then reads the data (41_addressing.md R95). -/
theorem dispatcherRuns_ldaAbs {s : State}
    (hentry : dispatchTable ramBus s.params (streamByte s 0#16) = some (entryLdaAbs ramBus s.params.absBankCross)) :
    DispatcherRuns (.ldaAbs (word16 (streamByte s 2#16) (streamByte s 1#16))) s := by
  refine ⟨_, dispatcherStep_of_bound hentry, ?_⟩
  simp only [exec, execLdaAbs, State.onBlock, State.fetched_eq_fetchedBlock, entryLdaAbs, gate, absolute,
    fetch16_fetchedBlock]
  rfl

/-- LDA #imm at 8 bits: the Immediate resolver fetches one byte (41_addressing.md R93). -/
theorem dispatcherRuns_ldaImm_w8 {s : State} (hop : streamByte s 0#16 = 0xA9#8) (hw : widthOf s.regs.p = .w8) :
    DispatcherRuns (.ldaImm (.w8 (streamByte s 1#16))) s := by
  have hentry : dispatchTable ramBus s.params (streamByte s 0#16) = some (entryLdaImm ramBus) := by
    rw [hop, dispatchTable_ldaImm]
  refine ⟨_, dispatcherStep_of_bound hentry, ?_⟩
  simp only [exec, execLdaImm, State.onBlock, State.fetched_eq_fetchedBlock, entryLdaImm, gate, hw, immediate,
    fetch_fetchedBlock]
  rfl

/-- LDA #imm at 16 bits: the Immediate resolver fetches two bytes (41_addressing.md R93). -/
theorem dispatcherRuns_ldaImm_w16 {s : State} (hop : streamByte s 0#16 = 0xA9#8) (hw : widthOf s.regs.p = .w16) :
    DispatcherRuns (.ldaImm (.w16 (word16 (streamByte s 2#16) (streamByte s 1#16)))) s := by
  have hentry : dispatchTable ramBus s.params (streamByte s 0#16) = some (entryLdaImm ramBus) := by
    rw [hop, dispatchTable_ldaImm]
  refine ⟨_, dispatcherStep_of_bound hentry, ?_⟩
  simp only [exec, execLdaImm, State.onBlock, State.fetched_eq_fetchedBlock, entryLdaImm, gate, hw, immediate,
    fetch16_fetchedBlock]
  rfl

/-- Whatever instruction the machine decodes, the dispatcher's step on the reference RAM runs it (40_dispatch.md R71). -/
theorem dispatcherRuns_of_decoded {i : Instr} {s : State} (hd : s.decoded = .ok i) : DispatcherRuns i s := by
  rcases decode_cases s.params (widthOf s.regs.p) s.stream with
    ⟨hop, h⟩ | ⟨hop, h⟩ | ⟨hop, hw, h⟩ | ⟨hop, hw, h⟩ | ⟨h₁, h₂, h₃, hop, h⟩ | ⟨-, -, -, -, h⟩ <;>
    cases h.symm.trans hd
  · exact dispatcherRuns_sei hop
  · exact dispatcherRuns_stzAbs hop
  · exact dispatcherRuns_ldaImm_w8 hop hw
  · exact dispatcherRuns_ldaImm_w16 hop hw
  · exact dispatcherRuns_ldaAbs (dispatchTable_ldaAbs ramBus h₁ h₂ h₃ hop)

/-! ### When a step completes -/

/-- A step that is allowed completes exactly on a bound opcode (40_dispatch.md R77; 60_exceptions.md R131). -/
theorem step_completes_iff {s : State} (h : s.stepRefusal = none) :
    (∃ t, step s = .next t) ↔ BoundOpcode s.params (streamByte s 0#16) := by
  constructor
  · rintro ⟨t, ht⟩
    by_contra hop
    rw [step_of_unbound h hop] at ht
    cases ht
  · intro hop
    cases hs : step s with
    | next t => exact ⟨t, rfl⟩
    | fault f => exact absurd hop (step_fault hs).2
    | refused r => rw [step_refused_iff, h] at hs; cases hs

/-- A legal state is one in which no step is refused. -/
theorem State.Inv.stepRefusal {s : State} (hs : s.Inv) : s.stepRefusal = none :=
  State.stepRefusal_none.mpr ⟨hs.ready, hs.params⟩

/-- A step that completes leaves the dispatcher Ready (40_dispatch.md R78). -/
theorem step_next_ready {s t : State} (h : step s = .next t) : t.phase = .ready := by
  obtain ⟨-, i, u, -, -, rfl⟩ := step_next h
  rfl

/-! ### How a run ends -/

/-- No move is refused in a legal state. -/
theorem move_ne_refused {m : Move} {s : State} (hs : s.Inv) (r : Refusal) : move m s ≠ .refused r := by
  cases m with
  | step => simp [move, step_refused_iff, hs.stepRefusal]
  | reset d => simp [move, resetEntry_of_wf (by simp [hs.ready]) hs.params]
  | write w => simp [move, hostWrite_ready hs.ready]

/-- A run from a legal state completes or ends in a fault, by induction on the moves. -/
theorem drive_completes_or_faults {ms : List Move} {s : State} (hs : s.Inv) :
    SafeDrive ms s ∨ ∃ f, drive ms s = .fault f := by
  induction ms generalizing s with
  | nil => exact .inl ⟨s, rfl⟩
  | cons m ms ih =>
    cases hm : move m s with
    | next t =>
      rw [SafeDrive, drive_cons_of_next hm]
      exact ih (move_inv hs hm)
    | fault f => exact .inr ⟨f, drive_cons_of_fault hm ms⟩
    | refused r => exact absurd hm (move_ne_refused hs r)

/-- A run that ends in a fault ends at a step that raises it, after moves that complete (40_dispatch.md R80), by induction
on the moves. -/
theorem drive_fault {ms : List Move} {s : State} {f : Fault} (h : drive ms s = .fault f) :
    ∃ (before after : List Move) (t : State),
      ms = before ++ .step :: after ∧ drive before s = .next t ∧ step t = .fault f := by
  induction ms generalizing s with
  | nil => cases h
  | cons m ms ih =>
    cases hm : move m s with
    | next u =>
      rw [drive_cons_of_next hm] at h
      obtain ⟨before, after, t, rfl, hbefore, hstep⟩ := ih h
      exact ⟨m :: before, after, t, rfl, (drive_cons_of_next hm before).trans hbefore, hstep⟩
    | fault g =>
      obtain rfl : g = f := Host.Outcome.fault.inj ((drive_cons_of_fault hm ms).symm.trans h)
      obtain rfl := move_fault hm
      exact ⟨[], ms, s, rfl, rfl, hm⟩
    | refused r => rw [drive_cons_of_refused hm] at h; cases h

/-- A run ends with the fault of a step that its moves complete up to. -/
theorem drive_append_step_of_fault {before : List Move} {s t : State} {f : Fault} (h : drive before s = .next t)
    (hstep : step t = .fault f) (after : List Move) : drive (before ++ .step :: after) s = .fault f :=
  (drive_append_of_next h _).trans (drive_cons_of_fault (m := .step) hstep after)

/-! ### Runs of steps -/

/-- A run of steps whose first one completes goes on from there. -/
theorem run_succ_of_next {s t : State} (h : step s = .next t) (n : Nat) :
    Host.Core.run core (n + 1) s = Host.Core.run core n t := by
  have hcore : core.step s = .next t := h
  simp only [Host.Core.run, hcore]

/-- A run of steps completes when its first step and the run from there do. -/
theorem safeRun_succ_iff {n : Nat} {s : State} : SafeRun (n + 1) s ↔ ∃ t, step s = .next t ∧ SafeRun n t := by
  constructor
  · rintro ⟨v, hv⟩
    cases hs : core.step s with
    | next t => exact ⟨t, hs, v, (run_succ_of_next hs n).symm.trans hv⟩
    | fault f => simp [Host.Core.run, hs] at hv
    | refused r => simp [Host.Core.run, hs] at hv
  · rintro ⟨t, ht, v, hv⟩
    exact ⟨v, (run_succ_of_next ht n).trans hv⟩

end Sys2Proof.Machine
end

section
/-! PROOFS. The statements about the dispatcher: the step and the spec's own step, the gate, and how runs end. -/

namespace Sys2Proof

open Machine

/-! ### The step -/

/-- Settles O18: the fetches of the decoded instruction's bytes leave the block that its effect starts from. -/
theorem stepRunsTheDecodedInstruction : Obligations.StepRunsTheDecodedInstruction := by
  intro s i hs hd
  exact ⟨step_of_decoded (State.stepRefusal_none.mpr hs) hd, State.fetched_regs i s, State.fetched_mem i s,
    congrArg Block.trace (State.fetched_eq_fetchedBlock i s), rfl, rfl, fun _ => rfl⟩

/-- Settles O19, by what the machine decodes: an instruction, which the dispatcher runs too, or an unbound opcode. -/
theorem stepAgreesWithTheDispatcher : Obligations.StepAgreesWithTheDispatcher := by
  intro s hs
  have hr : s.stepRefusal = none := State.stepRefusal_none.mpr hs
  cases hd : s.decoded with
  | ok i =>
    obtain ⟨b, hb, hexec⟩ := dispatcherRuns_of_decoded hd
    rw [step_of_decoded hr hd, hexec, hb]
    simp only [finishStep, State.fetched_params, hs.1]
  | error e =>
    have hop : ¬ BoundOpcode s.params (streamByte s 0#16) := (decode_eq_error_iff.mp hd).2
    rw [step_of_unbound hr hop, dispatcherStep_of_unbound hop]
    rfl

/-- Settles O21: the dispatcher's step on an unbound opcode. -/
theorem decodeFailureLeavesRegistersUnchanged : Obligations.DecodeFailureLeavesRegistersUnchanged :=
  fun _ _ _ _ => dispatcherStep_of_unbound

/-- Settles O25: a bound opcode is all that a step needs to complete. -/
theorem stepCompletesOnBoundOpcodes : Obligations.StepCompletesOnBoundOpcodes := by
  intro s hs hop
  obtain ⟨t, ht⟩ := (step_completes_iff (State.stepRefusal_none.mpr hs)).mpr hop
  exact ⟨t, ht, step_next_ready ht⟩

/-! ### The gate -/

/-- Settles O37: at the width the gate reads, each resolver is its continuation of that width, applied to what it fetched
and read. -/
theorem gateRunsExactlyOneContinuation : Obligations.GateRunsExactlyOneContinuation := by
  intro μ bus c p b
  constructor
  · intro hW
    refine ⟨?_, ?_, ?_, ?_⟩ <;> exact ⟨_, _, fun _ k8 k16 => congrFun (gate_w8 hW _ k8 k16) b⟩
  · intro hW
    refine ⟨?_, ?_, ?_, ?_⟩ <;> exact ⟨_, _, fun _ k8 k16 => congrFun (gate_w16 hW _ k8 k16) b⟩

/-! ### Runs -/

/-- Settles O51: a fault ends a run at the step that raises it, and only an unbound opcode raises one. -/
theorem drivenRunEndsInTheFirstDecodeFailure : Obligations.DrivenRunEndsInTheFirstDecodeFailure := by
  intro ms s
  refine ⟨fun f => ⟨fun h => ?_, ?_⟩, drive_completes_or_faults⟩
  · obtain ⟨before, after, t, hms, hbefore, hstep⟩ := drive_fault h
    exact ⟨before, after, t, hms, hbefore, (stepFaultsExactlyOnUnboundOpcodes t f).mp hstep⟩
  · rintro ⟨before, after, t, rfl, hbefore, hfault⟩
    exact drive_append_step_of_fault hbefore ((stepFaultsExactlyOnUnboundOpcodes t f).mpr hfault) after

/-- Settles O59, by induction on the number of steps: the first completes exactly on a bound opcode, into a legal state. -/
theorem stepsCompleteExactlyWhileOpcodesAreBound : Obligations.StepsCompleteExactlyWhileOpcodesAreBound := by
  intro n
  induction n with
  | zero => exact fun s _ => ⟨fun _ k t hk => absurd hk (Nat.not_lt_zero k), fun _ => ⟨s, rfl⟩⟩
  | succ n ih =>
    intro s hs
    have hfirst := step_completes_iff hs.stepRefusal
    rw [safeRun_succ_iff]
    constructor
    · rintro ⟨u, hu, hrest⟩ k t hk hrun
      cases k with
      | zero =>
        cases hrun
        exact hfirst.mp ⟨u, hu⟩
      | succ k =>
        rw [run_succ_of_next hu] at hrun
        exact (ih u (step_inv hs hu)).mp hrest k t (Nat.lt_of_succ_lt_succ hk) hrun
    · intro hbound
      obtain ⟨u, hu⟩ := hfirst.mpr (hbound 0 s n.succ_pos rfl)
      refine ⟨u, hu, (ih u (step_inv hs hu)).mpr fun k t hk hrun => ?_⟩
      exact hbound (k + 1) t (Nat.succ_lt_succ hk) ((run_succ_of_next hu k).trans hrun)

end Sys2Proof
end

section
/-! PROOFS, support. What the Immediate and the Absolute resolver fetch and read after the opcode fetch, on any
collaborator. -/

namespace Sys2Proof.Machine

variable {μ ρ : Type}

/-- The immediate resolver at 8 bits after the opcode fetch: one operand byte fetched and handed over
(41_addressing.md R93). -/
theorem immediate_w8_fetchedBlock (bus : Bus μ) (r : RegFile) (m : μ) (trace : List BusCall) (k8 : U8 → Block μ → ρ)
    (k16 : U16 → Block μ → ρ) :
    let v := anyFetch bus r m 1#16
    immediate bus .w8 k8 k16 (fetchedBlock r 1#16 m trace) =
      k8 v.1 (fetchedBlock r 2#16 v.2 (trace ++ [.read (streamAt r 1#16) v.1])) := by
  simp only [immediate, fetch_fetchedBlock]
  rfl

/-- The immediate resolver at 16 bits after the opcode fetch: two operand bytes fetched, low byte first, and their word
handed over (41_addressing.md R93). -/
theorem immediate_w16_fetchedBlock (bus : Bus μ) (r : RegFile) (m : μ) (trace : List BusCall) (k8 : U8 → Block μ → ρ)
    (k16 : U16 → Block μ → ρ) :
    let lo := anyFetch bus r m 1#16
    let hi := anyFetch bus r lo.2 2#16
    immediate bus .w16 k8 k16 (fetchedBlock r 1#16 m trace) =
      k16 (word16 hi.1 lo.1)
        (fetchedBlock r 3#16 hi.2 (trace ++ [.read (streamAt r 1#16) lo.1, .read (streamAt r 2#16) hi.1])) := by
  simp only [immediate, fetch16_fetchedBlock]
  rfl

/-- The absolute resolver after the opcode fetch: the two operand bytes fetched, the value at the address they name read
and handed over (41_addressing.md R95). -/
theorem absolute_fetchedBlock (bus : Bus μ) (c : AbsBankCross) (r : RegFile) (m : μ) (trace : List BusCall) (w : Width)
    (k8 : U8 → Block μ → ρ) (k16 : U16 → Block μ → ρ) :
    let lo := anyFetch bus r m 1#16
    let hi := anyFetch bus r lo.2 2#16
    absolute bus c w k8 k16 (fetchedBlock r 1#16 m trace) =
      deliverMemory bus c (r.dataAddr (word16 hi.1 lo.1)) w k8 k16
        (fetchedBlock r 3#16 hi.2 (trace ++ [.read (streamAt r 1#16) lo.1, .read (streamAt r 2#16) hi.1])) := by
  simp only [absolute, fetch16_fetchedBlock]
  rfl

end Sys2Proof.Machine
end

section
/-! PROOFS. The statements about the resolvers on any collaborator: what SEI, LDA #imm and LDA abs read, in which order. -/

namespace Sys2Proof

open Machine

/-- Settles O34: the gate runs the triple bound to the opcode after its fetch; SEI's resolver makes no bus call, that of
LDA #imm fetches as many bytes as the width has. -/
theorem seiAndLdaImmediateOnAnyBus : Obligations.SeiAndLdaImmediateOnAnyBus := by
  intro μ bus p b f0 f1 f2
  have hsei : f0.1 = 0x78#8 → dispatchTable bus p f0.1 = some entrySei := fun hop => by
    rw [hop, dispatchTable_sei]
  have hlda : f0.1 = 0xA9#8 → dispatchTable bus p f0.1 = some (entryLdaImm bus) := fun hop => by
    rw [hop, dispatchTable_ldaImm]
  refine ⟨fun hop => ?_, fun hop hW => ?_, fun hop hW => ?_⟩
  · rw [dispatcherStep_of_bound (hsei hop)]
    cases hW : b.regs.p.getLsbD 5 with
    | false => rw [gate_w8 hW]; rfl
    | true => rw [gate_w16 hW]; rfl
  · simp only [dispatcherStep_of_bound (hlda hop), gate_w8 hW, entryLdaImm, immediate_w8_fetchedBlock]
    rfl
  · simp only [dispatcherStep_of_bound (hlda hop), gate_w16 hW, entryLdaImm, immediate_w16_fetchedBlock]
    rfl

/-- Settles O36: a well-formed configuration binds the opcode to LDA abs's triple alone; its resolver fetches the operand,
then reads the data at the width. -/
theorem ldaAbsoluteOnAnyBus : Obligations.LdaAbsoluteOnAnyBus := by
  intro μ bus p b f0 f1 f2 lo hi d0 d1 fetches hwf hop
  obtain ⟨hsei, hstz, hlda⟩ := Params.wf_some hwf hop
  have hstep := dispatcherStep_of_bound (dispatchTable_ldaAbs bus hsei hstz hlda hop)
  refine ⟨fun hW => ?_, fun hW => ?_⟩
  · simp only [hstep, gate_w8 hW, entryLdaAbs, absolute_fetchedBlock]
    rfl
  · simp only [hstep, gate_w16 hW, entryLdaAbs, absolute_fetchedBlock, deliverMemory, memRead16_eq]
    rfl

end Sys2Proof
end

section
/-! PROOFS, support. From the dispatcher's step on the reference RAM to the machine's, and what a store leaves in
memory. -/

namespace Sys2Proof.Machine

/-- Where the dispatcher's step on the reference RAM completes, the machine's step is that step (40_dispatch.md R71). -/
theorem step_of_dispatcherStep {s : State} {b : Block Memory} (hs : Steppable s)
    (h : dispatcherStep ramBus s.params s.toBlock = (.ok, b)) : step s = .next { s with toBlock := b } := by
  rw [stepAgreesWithTheDispatcher s hs, h]

/-- STZ abs keeps every register (42_execute.md R119). -/
theorem exec_stzAbs_regs {offset : U16} {s t : State} (h : exec (.stzAbs offset) s = .next t) : t.regs = s.regs := by
  cases hW : s.regs.p.getLsbD 5 with
  | false => rw [exec_stzAbs_w8 hW] at h; cases h; rfl
  | true => rw [exec_stzAbs_w16 hW] at h; cases h; rfl

/-- At 16 bits STZ abs leaves 0x00 at the next address too (42_execute.md R117). -/
theorem exec_stzAbs_read_nextAddr {offset : U16} {s t : State} (hm : s.mem.wf = true)
    (h : exec (.stzAbs offset) s = .next t) (hW : s.regs.p.getLsbD 5 = true) :
    t.mem.read (nextAddr s.params.absBankCross (s.regs.dataAddr offset)).phys = 0x00#8 := by
  rw [exec_stzAbs_w16 hW] at h
  cases h
  exact (memWrite16_ram_read hm _ _ _ _).trans (if_pos rfl)

/-- STZ abs keeps every byte but the one at the address it names and, at 16 bits, the one at the next address
(42_execute.md R116, R117). -/
theorem exec_stzAbs_read_of_ne {offset : U16} {s t : State} (hm : s.mem.wf = true)
    (h : exec (.stzAbs offset) s = .next t) {x : Addr} (hlo : x ≠ s.regs.dataAddr offset)
    (hhi : s.regs.p.getLsbD 5 = true → x ≠ nextAddr s.params.absBankCross (s.regs.dataAddr offset)) :
    t.mem.read x.phys = s.mem.read x.phys := by
  cases hW : s.regs.p.getLsbD 5 with
  | false =>
    rw [exec_stzAbs_w8 hW] at h
    cases h
    exact (memWrite8_ram_read hm _ _ _).trans (if_neg hlo)
  | true =>
    rw [exec_stzAbs_w16 hW] at h
    cases h
    exact (memWrite16_ram_read hm _ _ _ _).trans ((if_neg (hhi hW)).trans (if_neg hlo))

end Sys2Proof.Machine
end

section
/-! PROOFS. The statements about what each instruction does: its handler, its own effect, its whole step, and the frame of
a store. -/

namespace Sys2Proof

open Machine

/-! ### The whole step: on the reference RAM it is the dispatcher's, which any collaborator's reads and writes give -/

/-- Settles O30: SEI's step on any collaborator, taken on the reference RAM. -/
theorem seiStepAdvancesByOne : Obligations.SeiStepAdvancesByOne := by
  intro s hs hop
  obtain ⟨hsei, -, -⟩ := seiAndLdaImmediateOnAnyBus Memory ramBus s.params s.toBlock
  exact step_of_dispatcherStep hs (hsei hop)

/-- Settles O31: the step of LDA #imm on any collaborator, taken on the reference RAM. -/
theorem ldaImmediateStepTakesOneOrTwoBytes : Obligations.LdaImmediateStepTakesOneOrTwoBytes := by
  intro s hs hop
  obtain ⟨-, hlda8, hlda16⟩ := seiAndLdaImmediateOnAnyBus Memory ramBus s.params s.toBlock
  exact ⟨fun hW => step_of_dispatcherStep hs (hlda8 hop hW), fun hW => step_of_dispatcherStep hs (hlda16 hop hW)⟩

/-- Settles O32: the step of LDA abs on any collaborator, taken on the reference RAM, whose reads change nothing. -/
theorem ldaAbsoluteStepReadsAfterFetching : Obligations.LdaAbsoluteStepReadsAfterFetching := by
  intro s hs hop
  obtain ⟨hlda8, hlda16⟩ := ldaAbsoluteOnAnyBus Memory ramBus s.params s.toBlock hs.2 hop
  exact ⟨fun hW => step_of_dispatcherStep hs (hlda8 hW), fun hW => step_of_dispatcherStep hs (hlda16 hW)⟩

/-- Settles O33: the step of STZ abs on any collaborator, taken on the reference RAM. -/
theorem stzAbsoluteStepWritesAfterFetching : Obligations.StzAbsoluteStepWritesAfterFetching := by
  intro s hs hop
  obtain ⟨hstz8, hstz16⟩ := stzAbsoluteOnAnyBus Memory ramBus s.params s.toBlock hop
  exact ⟨fun hW => step_of_dispatcherStep hs (hstz8 hW), fun hW => step_of_dispatcherStep hs (hstz16 hW)⟩

/-! ### The frame of a store -/

/-- Settles O39: a store is one write at 8 bits and two at 16, and a write changes the byte at its address alone. -/
theorem storeFrame : Obligations.StoreFrame := by
  intro offset s t hm h
  have hf := exec_frame h
  refine ⟨exec_stzAbs_regs h, hf.phase, hf.params, ?_⟩
  rintro a rfl
  exact ⟨exec_stzAbs_read hm h, exec_stzAbs_read_nextAddr hm h, fun x => exec_stzAbs_read_of_ne hm h⟩

/-! ### The handlers and the instructions' own effect -/

/-- Settles O11: SEI and the loads set one register; the stores are the 8-bit and the 16-bit write of zero. -/
theorem handlersDoExactlyWhatTheirRulesList : Obligations.HandlersDoExactlyWhatTheirRulesList := by
  intro μ bus cross b v u a
  exact ⟨rfl, rfl, rfl, rfl, memWrite16_eq bus cross a default16 b⟩

/-- Settles O26: the gate runs the one handler at either width. -/
theorem seiSetsInterruptDisable : Obligations.SeiSetsInterruptDisable := exec_sei

/-- Settles O27: the handler of the immediate's width. -/
theorem ldaImmediateLoadsTheAccumulator : Obligations.LdaImmediateLoadsTheAccumulator :=
  fun s v u => ⟨exec_ldaImm_w8 v s, exec_ldaImm_w16 u s⟩

end Sys2Proof
end

section
/-! PROOFS. When the dispatcher's step fails, on any collaborator, and that the failure repeats. -/

namespace Sys2Proof.Machine

variable {μ : Type}

/-- The dispatch table is empty exactly at the unbound opcodes (40_dispatch.md R72). -/
theorem dispatchTable_eq_none_iff {bus : Bus μ} {p : Params} {op : U8} :
    dispatchTable bus p op = none ↔ ¬ BoundOpcode p op := by
  refine ⟨fun hnone => ?_, dispatchTable_eq_none bus⟩
  rintro (rfl | rfl | rfl | hlda)
  · simp [dispatchTable_sei] at hnone
  · simp [dispatchTable_stzAbs] at hnone
  · simp [dispatchTable_ldaImm] at hnone
  · simp only [dispatchTable, if_pos hlda] at hnone
    split_ifs at hnone

/-- What a failed step has done: its opcode is unbound, the report is of the byte read at the PC of the step's start, and
the one read is all that it leaves behind (40_dispatch.md R79). -/
theorem dispatcherStep_decodeFailure {bus : Bus μ} {p : Params} {b b' : Block μ} {info : DecodeFailureInfo}
    (h : dispatcherStep bus p b = (.decodeFailure info, b')) :
    let opcode := anyFetch bus b.regs b.mem 0#16
    ¬ BoundOpcode p opcode.1 ∧ info = ⟨opcode.1, b.regs.pb, b.regs.pc⟩ ∧
      b' = { regs := b.regs, mem := opcode.2, trace := [.read (streamAt b.regs 0#16) opcode.1] } := by
  cases hentry : dispatchTable bus p (anyFetch bus b.regs b.mem 0#16).1 with
  | some entry =>
    rw [dispatcherStep_of_bound hentry] at h
    cases h
  | none =>
    have hop := dispatchTable_eq_none_iff.mp hentry
    rw [dispatcherStep_of_unbound hop] at h
    cases h
    exact ⟨hop, rfl, rfl⟩

end Sys2Proof.Machine

namespace Sys2Proof

open Machine

/-- Settles O22: the failed step left the registers as they were, so the same byte at the same PC is unbound again. -/
theorem decodeFailureRepeats : Obligations.DecodeFailureRepeats := by
  intro μ bus p b b' info h hbyte
  obtain ⟨hop, rfl, hb'⟩ := dispatcherStep_decodeFailure h
  have hregs : b'.regs = b.regs := by rw [hb']
  have hop' : ¬ BoundOpcode p (anyFetch bus b'.regs b'.mem 0#16).1 := by rwa [hbyte]
  rw [dispatcherStep_of_unbound hop', hbyte, hregs]
  exact ⟨rfl, rfl⟩

end Sys2Proof
end

section
/-! PROOFS. What the reset entry point leaves, on any collaborator and on the reference RAM, and what it depends on. -/

namespace Sys2Proof.Machine

/-- The reset vector's high byte lies one on, in the same bank (20_memory.md R45). -/
theorem resetVector_highByteAddr :
    (⟨resetVector.bank, resetVector.offset + 1#16⟩ : Addr) = ⟨0x00#8, 0xFFFD#16⟩ := by decide

/-- Outside a step only the configuration decides whether a reset is carried out (70_reset_and_hazards.md R150;
30_encoding.md R55). -/
theorem resetEntry_of_not_executing {s : State} (hph : s.phase ≠ .executing) (d : U16) :
    resetEntry d s = if s.params.wf then .next (s.afterReset d) else .refused .illFormedConfiguration := by
  cases h : s.phase with
  | executing => exact absurd h hph
  | beforeReset => simp only [resetEntry, h]
  | ready => simp only [resetEntry, h]

end Sys2Proof.Machine

namespace Sys2Proof

open Machine

/-- Settles O53: two bus reads from an empty trace, then a register file with nothing of the old one in it. -/
theorem resetReadsTheVectorOnAnyBus : Obligations.ResetReadsTheVectorOnAnyBus := by
  intro μ bus aReset b
  rw [Block.reset, resetVector_highByteAddr]
  rfl

/-- Settles O52: the reset on any collaborator, taken on the reference RAM, whose reads change nothing. -/
theorem resetLoadsEveryRegister : Obligations.ResetLoadsEveryRegister := by
  intro aReset s hph hp
  have hblock := resetReadsTheVectorOnAnyBus Memory ramBus aReset s.toBlock
  rw [resetEntry_of_wf hph hp, State.afterReset, hblock]
  rfl

/-- On any collaborator a reset leaves the same block wherever the collaborator is in the same state
(70_reset_and_hazards.md R151). -/
theorem Machine.Block.reset_eq_of_mem_eq {μ : Type} {b b' : Block μ} (hm : b.mem = b'.mem) (bus : Bus μ)
    (aReset : U16) : b.reset bus aReset = b'.reset bus aReset := by
  rw [resetReadsTheVectorOnAnyBus μ bus aReset b, resetReadsTheVectorOnAnyBus μ bus aReset b', hm]

/-- Settles O54: the configuration decides whether a reset is carried out, and the block it leaves is memory's. -/
theorem resetForgetsTheRegisters : Obligations.ResetForgetsTheRegisters := by
  intro aReset s s' hm hp hph hph'
  have hafter : s.afterReset aReset = s'.afterReset aReset := by
    rw [State.afterReset, State.afterReset, Block.reset_eq_of_mem_eq hm ramBus aReset, hp]
  rw [resetEntry_of_not_executing hph, resetEntry_of_not_executing hph', hp, hafter]

end Sys2Proof
end

section
/-! PROOFS. The registers a reset of the reference RAM leaves, and the named state after reset. -/

namespace Sys2Proof.Machine

/-- On the reference RAM a reset loads PC from the vector's two bytes, and the other registers from constants and the
draw (10_state.md R25; 70_reset_and_hazards.md R150). -/
theorem State.afterReset_regs (d : U16) (s : State) :
    (s.afterReset d).regs =
      { pb := 0x00#8
        pc := word16 (s.mem.read (⟨0x00#8, 0xFFFD#16⟩ : Addr).phys) (s.mem.read (⟨0x00#8, 0xFFFC#16⟩ : Addr).phys)
        db := 0x00#8, a := d, p := 0x04#8 } := by
  rw [State.afterReset, resetReadsTheVectorOnAnyBus Memory ramBus d s.toBlock]
  rfl

/-- Where memory lists nothing, both bytes of the vector are the default, and so PC is 0. -/
theorem State.reset_regs :
    State.reset.regs = { pb := 0x00#8, pc := 0x0000#16, db := 0x00#8, a := Config.aReset, p := 0x04#8 } := by
  have hmem : (State.powerOn Config.params []).mem = [] := rfl
  have hpc : word16 unlistedByte unlistedByte = 0x0000#16 := by decide
  rw [State.reset, State.boot, State.afterReset_regs, hmem, Memory.read_nil, Memory.read_nil, hpc]

end Sys2Proof.Machine

namespace Sys2Proof

open Machine

/-- Settles O56: the registers are a reset's on an empty memory; I and W are bits of P = 0x04; memory and configuration
are those of the first power-on. -/
theorem stateAfterReset : Obligations.StateAfterReset := by
  have hI : flagI 0x04#8 = true := by decide
  have hW : widthOf 0x04#8 = .w8 := widthOf_w8 (by decide)
  refine ⟨State.reset_regs, State.afterReset_mem _ _, State.afterReset_phase _ _, rfl, ?_, ?_⟩
  · rw [State.reset_regs, hI]
  · rw [State.reset_regs, hW]

end Sys2Proof
end
